-- ==== Sys2Proof/Word.lean ====
section
/-! DEFINITION. The two widths of the CORE: the byte of every register, RAM cell, opcode and operand (00_scope.md R5, R6)
and the 16-bit word of one ROM slot (30_encoding.md R50, R52). -/

namespace Sys2Proof

/-- An unsigned 8-bit value: `acc`, `pc`, a RAM cell, an opcode, an operand (00_scope.md R6). -/
abbrev Byte := BitVec 8

/-- One ROM slot, 16 bits: the opcode in bits 15..8, the operand in bits 7..0 (30_encoding.md R52). -/
abbrev Word := BitVec 16

end Sys2Proof
end

