-- ==== Sys2Proof/Syntax.lean ====
section
/-! DEFINITION. The fifteen instructions of spec/opcode_table.json, in its order, and the tokens of the source text the
Loader reads (30_encoding.md R55, R59). -/

namespace Sys2Proof

/-- An instruction: one constructor per row of the opcode table, each with its operand byte `k` (30_encoding.md R50).
R, T and D carry an operand too: it is encoded and affects nothing (R54). -/
inductive Instr where
  /-- `G k`: load, direct (41_load_store.md R73). -/
  | load (k : Byte)
  /-- `g k`: load, indirect (R74). -/
  | loadInd (k : Byte)
  /-- `O k`: store, direct (R75). -/
  | store (k : Byte)
  /-- `o k`: store, indirect (R76). -/
  | storeInd (k : Byte)
  /-- `R k`: read input into the accumulator (42_io.md R77). -/
  | readAcc (k : Byte)
  /-- `r k`: read input into memory (R78). -/
  | readMem (k : Byte)
  /-- `B k`: branch if the accumulator is zero, direct target (43_branch.md R81). -/
  | branch (k : Byte)
  /-- `b k`: branch if the accumulator is zero, target from memory (R82). -/
  | branchInd (k : Byte)
  /-- `I k`: add immediate (44_arith.md R85). -/
  | addImm (k : Byte)
  /-- `T k`: write the accumulator to output (42_io.md R79). -/
  | writeAcc (k : Byte)
  /-- `t k`: write a memory byte to output (R80). -/
  | writeMem (k : Byte)
  /-- `S k`: set the accumulator to an immediate (44_arith.md R86). -/
  | setImm (k : Byte)
  /-- `A k`: add from memory, direct (R87). -/
  | add (k : Byte)
  /-- `a k`: add from memory, indirect (R88). -/
  | addInd (k : Byte)
  /-- `D k`: halt (40_dispatch.md R68). -/
  | halt (k : Byte)
deriving DecidableEq, Repr

/-- A token of the source text: a letter and its decimal integer, 0 where the text has none (30_encoding.md R59). The
integer is as written; that it fits a byte is a check of WellFormed. -/
structure Token where
  letter : Byte
  operand : Nat
deriving DecidableEq, Repr

end Sys2Proof
end

