-- ==== Sys2Proof/WellFormed.lean ====
section
/-! DEFINITION. Which instructions, tokens and source programs are well formed (30_encoding.md R57, R59, R60). -/

namespace Sys2Proof

/-- Every operand value 0..255 is legal with every opcode (30_encoding.md R57), and the operand's type holds exactly those
values, so every instruction is well formed. -/
def Instr.wellFormed : Instr → Bool
  | .load _ => true
  | .loadInd _ => true
  | .store _ => true
  | .storeInd _ => true
  | .readAcc _ => true
  | .readMem _ => true
  | .branch _ => true
  | .branchInd _ => true
  | .addImm _ => true
  | .writeAcc _ => true
  | .writeMem _ => true
  | .setImm _ => true
  | .add _ => true
  | .addInd _ => true
  | .halt _ => true

/-- An ASCII letter, A..Z or a..z (30_encoding.md R59). -/
def isLetter (c : Byte) : Bool :=
  (0x41 ≤ c.toNat && c.toNat ≤ 0x5A) || (0x61 ≤ c.toNat && c.toNat ≤ 0x7A)

/-- A token the spec's assembler takes: a letter, and an integer not greater than 255 (R59, D14). The letter need not be
one of the fifteen: others "are stored verbatim and become illegal instructions at run time". -/
def Token.wellFormed (t : Token) : Bool :=
  isLetter t.letter && decide (t.operand ≤ 255)

/-- A source program that loads: fewer than 256 well-formed tokens (R60, 90_conflicts.md C3). -/
def programWellFormed (p : List Token) : Bool :=
  decide (p.length < 256) && p.all Token.wellFormed

end Sys2Proof
end

