-- ==== Sys2Proof/Decode.lean ====
section
/-! DEFINITION. The decoder of 30_encoding.md (R50 to R58), total on every word and every list of bytes, and the encoder
written from the same tables. -/

namespace Sys2Proof

/-- Why bytes decode to no instruction. -/
inductive DecodeError where
  /-- The opcode byte is none of the fifteen (30_encoding.md R56). Raised by `decode`; `step` takes the
  illegal-instruction fault for it, which is what the spec gives. Safe. -/
  | illegalOpcode (op k : Byte)
  /-- Fewer than the two bytes of an instruction (R50). Raised by `decodeBytes` on a short list only; a ROM slot always
  holds two bytes. Safe. -/
  | truncated
deriving DecidableEq, Repr

/-- `op = w[15:8]` (30_encoding.md R52). -/
def wordOp (w : Word) : Byte := w.extractLsb' 8 8

/-- `k = w[7:0]` (R52). -/
def wordOperand (w : Word) : Byte := w.extractLsb' 0 8

/-- `w = {op, k}`, the opcode in the high byte (R52, 92_eei_decisions.md D2). -/
def packWord (op k : Byte) : Word := op ++ k

/-- The opcode map of 30_encoding.md R55: a match on all 8 bits of the opcode, whatever the operand; none of the other 241
values is an instruction (R56). The byte values are the ASCII codes of the letters (R53, log 10). -/
def decodeOp (op k : Byte) : Option Instr :=
  match op.toNat with
  | 0x41 => some (.add k)
  | 0x42 => some (.branch k)
  | 0x44 => some (.halt k)
  | 0x47 => some (.load k)
  | 0x49 => some (.addImm k)
  | 0x4F => some (.store k)
  | 0x52 => some (.readAcc k)
  | 0x53 => some (.setImm k)
  | 0x54 => some (.writeAcc k)
  | 0x61 => some (.addInd k)
  | 0x62 => some (.branchInd k)
  | 0x67 => some (.loadInd k)
  | 0x6F => some (.storeInd k)
  | 0x72 => some (.readMem k)
  | 0x74 => some (.writeMem k)
  | _ => none

/-- Decode one ROM word (40_dispatch.md R65). -/
def decode (w : Word) : Except DecodeError Instr :=
  match decodeOp (wordOp w) (wordOperand w) with
  | some i => .ok i
  | none => .error (.illegalOpcode (wordOp w) (wordOperand w))

/-- Decode the first instruction of a list of bytes: the opcode byte comes first, the operand follows it
(20_memory.md R40); the rest of the list is returned. -/
def decodeBytes : List Byte → Except DecodeError (Instr × List Byte)
  | op :: k :: rest =>
    match decode (packWord op k) with
    | .ok i => .ok (i, rest)
    | .error e => .error e
  | _ => .error .truncated

/-- The ROM word of an instruction given as the host gives it: a number of which the low `nbits` bits count. A slot is one
16-bit word, so bit 0 of the number is bit 0 of the word. -/
def tableWord (nbits w : Nat) : Word := BitVec.ofNat 16 (w % 2 ^ nbits)

/-- What the decoder reads from an instruction's bits, numbered as spec/opcode_table.json numbers them. -/
def decodeTableWord (nbits w : Nat) : Option Instr :=
  match decode (tableWord nbits w) with
  | .ok i => some i
  | .error _ => none

/-- The opcode byte of an instruction: its letter's ASCII code (30_encoding.md R53). -/
def Instr.opcode : Instr → Byte
  | .load _ => 0x47#8
  | .loadInd _ => 0x67#8
  | .store _ => 0x4F#8
  | .storeInd _ => 0x6F#8
  | .readAcc _ => 0x52#8
  | .readMem _ => 0x72#8
  | .branch _ => 0x42#8
  | .branchInd _ => 0x62#8
  | .addImm _ => 0x49#8
  | .writeAcc _ => 0x54#8
  | .writeMem _ => 0x74#8
  | .setImm _ => 0x53#8
  | .add _ => 0x41#8
  | .addInd _ => 0x61#8
  | .halt _ => 0x44#8

/-- The operand byte of an instruction (30_encoding.md R51). -/
def Instr.operand : Instr → Byte
  | .load k => k
  | .loadInd k => k
  | .store k => k
  | .storeInd k => k
  | .readAcc k => k
  | .readMem k => k
  | .branch k => k
  | .branchInd k => k
  | .addImm k => k
  | .writeAcc k => k
  | .writeMem k => k
  | .setImm k => k
  | .add k => k
  | .addInd k => k
  | .halt k => k

/-- The ROM word of an instruction (30_encoding.md R52). -/
def encode (i : Instr) : Word := packWord i.opcode i.operand

/-- The bytes of an instruction in the order they stand, opcode first (20_memory.md R40). -/
def encodeBytes (i : Instr) : List Byte := [i.opcode, i.operand]

/-- The fifteen legal opcode bytes in the order of the table of 30_encoding.md R55. -/
def legalOpcodes : List Byte :=
  [0x41#8, 0x42#8, 0x44#8, 0x47#8, 0x49#8, 0x4F#8, 0x52#8, 0x53#8, 0x54#8,
   0x61#8, 0x62#8, 0x67#8, 0x6F#8, 0x72#8, 0x74#8]

end Sys2Proof
end

