-- ==== Sys2Proof/Config.lean ====
section
/-! DEFINITION. The implementation parameters of 00_scope.md R5 that are fixed, and the one value the spec leaves free.
The parameters R5 marks "argument" (ROM_IMAGE, INPUT, FILL_OPCODE) are arguments of State.boot, romImage and assemble. -/

namespace Sys2Proof

/-- Cells of the data RAM (R5). -/
def Config.ramSize : Nat := 256

/-- Slots of the instruction ROM (R5). -/
def Config.romSlots : Nat := 256

/-- The terminator slot: a next pc of 255 halts (R5, 40_dispatch.md R67). -/
def Config.terminatorSlot : Byte := 255#8

/-- What an input instruction receives at the end of the input (R5, 20_memory.md R36). -/
def Config.eofByte : Byte := 0xFF#8

/-- The default of FILL_OPCODE, the illegal opcode of an unfilled ROM slot (R5, 92_eei_decisions.md D4). -/
def Config.defaultFillOpcode : Byte := 0x00#8

/-- The number of the CORE's only cause, IllegalInstruction (60_exceptions.md R89, 92_eei_decisions.md D8). -/
def Config.illegalInstructionCause : Nat := 1

/-- FREE VALUE (DESIGN CHOICE, log 7; safe): `dbg_data` is "any value while running" (60_exceptions.md R98, U15 of
93_implementation_defined.md). The first argument numbers the host's observation, the second is `dbg_addr`. No body:
nothing can be proved of what it gives. -/
opaque Config.freeDbgData : Nat → Byte → Byte

end Sys2Proof
end

