-- ==== Sys2Proof/Machine/Memory.lean ====
section
/-! DEFINITION. The sparse store that holds both memories of the CORE: pairs of a key and a value in one canonical form
(keys strictly rising and in range, no value equal to what an unlisted key reads as). -/

namespace Sys2Proof.Machine

/-- The data RAM (10_state.md R23): the cells that are not 0. -/
abbrev Memory := List Host.Cell

/-- The instruction ROM (10_state.md R24): the slots that do not hold the default fill word. -/
abbrev Rom := List (Nat × Word)

/-- Read a key; an unlisted key reads `d`. -/
def Sparse.read {α : Type} (d : α) : List (Nat × α) → Nat → α
  | [], _ => d
  | (b, x) :: m, a => if a = b then x else Sparse.read d m a

/-- Remove a key. -/
def Sparse.erase {α : Type} (a : Nat) : List (Nat × α) → List (Nat × α)
  | [] => []
  | (b, x) :: m => if a = b then Sparse.erase a m else (b, x) :: Sparse.erase a m

/-- Put an entry at its place in the rising order. -/
def Sparse.insert {α : Type} (a : Nat) (v : α) : List (Nat × α) → List (Nat × α)
  | [] => [(a, v)]
  | (b, x) :: m => if a < b then (a, v) :: (b, x) :: m else (b, x) :: Sparse.insert a v m

/-- Write a key; writing what an unlisted key reads as removes the entry. -/
def Sparse.write {α : Type} [DecidableEq α] (d : α) (m : List (Nat × α)) (a : Nat) (v : α) : List (Nat × α) :=
  if v = d then Sparse.erase a m else Sparse.insert a v (Sparse.erase a m)

/-- The canonical form over keys below `size`. -/
abbrev Sparse.wf {α : Type} (size : Nat) (d : α) (m : List (Nat × α)) : Prop :=
  m.Pairwise (fun x y => x.1 < y.1) ∧ ∀ c ∈ m, c.1 < size ∧ c.2 ≠ d

/-- What a RAM cell that nothing has written reads as: 0, its reset value (10_state.md R27). -/
def ramDefault : Byte := 0#8

/-- What an unlisted ROM slot holds: the default fill opcode with operand 0 (30_encoding.md R60, logs 3 and 6). -/
def romDefault : Word := Config.defaultFillOpcode ++ (0#8 : Byte)

/-- The RAM byte at an address (20_memory.md R31). -/
def Memory.read (m : Memory) (a : Byte) : Byte := Sparse.read ramDefault m a.toNat

/-- The RAM after a byte is stored (20_memory.md R32). -/
def Memory.write (m : Memory) (a v : Byte) : Memory := Sparse.write ramDefault m a.toNat v

/-- The RAM's canonical form. -/
abbrev Memory.wf (m : Memory) : Prop := Sparse.wf Config.ramSize ramDefault m

/-- The word of a ROM slot, total over the slots 0..255 (20_memory.md R33, R34). -/
def Rom.read (m : Rom) (s : Byte) : Word := Sparse.read romDefault m s.toNat

/-- The image with one slot's word replaced. No instruction uses this (20_memory.md R35): it is the host's placing of an
image before reset is released (70_reset_and_hazards.md R106). -/
def Rom.write (m : Rom) (s : Byte) (w : Word) : Rom := Sparse.write romDefault m s.toNat w

/-- The ROM's canonical form. -/
abbrev Rom.wf (m : Rom) : Prop := Sparse.wf Config.romSlots romDefault m

/-- ROM_IMAGE as 00_scope.md R5 gives it, a function from slot to word, as plain data. -/
def Rom.ofFn (f : Nat → Word) : Rom :=
  ((List.range Config.romSlots).map fun s => (s, f s)).filter fun c => decide (c.2 ≠ romDefault)

end Sys2Proof.Machine
end

