-- ==== Sys2Proof/Machine/State.lean ====
section
/-! DEFINITION. The architectural state of 10_state.md R11, the reasons a step can stop, and the state after reset. -/

namespace Sys2Proof.Machine

/-- The run-state register (10_state.md R20). -/
inductive RunState where
  | running
  | halted
  | faulted
deriving DecidableEq, Repr

/-- The fault record (10_state.md R21): written on entering FAULTED, 0 in every field otherwise. -/
structure FaultRecord where
  pc : Byte
  acc : Byte
  opcode : Byte
  operand : Byte
deriving DecidableEq, Repr

/-- The record outside FAULTED (10_state.md R21, R27). -/
def FaultRecord.clear : FaultRecord := { pc := 0#8, acc := 0#8, opcode := 0#8, operand := 0#8 }

/-- One item of the input sequence: a byte, or an end-of-file mark, which may stand anywhere (92_eei_decisions.md D6). -/
inductive InputItem where
  | byte (b : Byte)
  | eof
deriving DecidableEq, Repr

/-- The input channel (10_state.md R25): the items of INPUT the host has made available and the CORE has not consumed, in
order, and whether INPUT has no item beyond them (log 2). With `ended` false the next item is still to come and a read
waits (20_memory.md R37); with `ended` true INPUT is exhausted after `supplied` and a read gives EOF (R36). -/
structure InputChannel where
  supplied : List InputItem
  ended : Bool
deriving DecidableEq, Repr

/-- The state of the CORE (10_state.md R11) and, as a field nothing in the CORE writes, its ROM image (R24, log 3). -/
structure State where
  /-- The accumulator (R13). -/
  acc : Byte
  /-- The program counter, a slot number (R15). -/
  pc : Byte
  /-- The run state (R20). -/
  run : RunState
  /-- The fault record (R21). -/
  fault : FaultRecord
  /-- The data RAM (R23). -/
  mem : Memory
  /-- The input channel (R25). -/
  input : InputChannel
  /-- Every byte emitted in this run, oldest first (R25). -/
  output : List Byte
  /-- ROM_IMAGE (R24): fixed for a run. -/
  rom : Rom
deriving DecidableEq, Repr

/-- Why a step stops with a fault of the MODEL. The CORE's own fault, the illegal instruction, is no constructor here: it
is a next state with `run = faulted` (60_exceptions.md R90). -/
inductive Fault where
  /-- Raised by `step` alone, in a state with `run = running` and `pc = 255`. Slot 255 is never fetched (40_dispatch.md
  R67) and no run reaches such a state (10_state.md R18), so the spec gives it no step. Safe (log 5). -/
  | terminatorSlot
deriving DecidableEq, Repr

/-- Why an instruction has no meaning. -/
inductive Refusal where
  /-- Raised by no arm of `exec`: all fifteen instructions have their meaning. The host's interface names it. Safe. -/
  | notModelled (mnemonic : String)
deriving DecidableEq, Repr

/-- The CORE right after reset (10_state.md R27, 70_reset_and_hazards.md R104), with the empty INPUT wholly supplied
(DESIGN CHOICE, log 1) and a ROM that no image was placed in, every slot the default fill (DESIGN CHOICE, log 3).
`State.boot` takes ROM_IMAGE and INPUT as arguments. -/
def State.reset : State where
  acc := 0#8
  pc := 0#8
  run := .running
  fault := .clear
  mem := []
  input := { supplied := [], ended := true }
  output := []
  rom := []

end Sys2Proof.Machine
end

