-- ==== Sys2Proof/Machine/Ops.lean ====
section
/-! DEFINITION. The pseudocode primitives of 00_scope.md R8 as named operations on State: RAM, ROM, input, output, the
adder, halt, the next-pc and terminator step, taking the illegal-instruction fault, and reset, which alone leaves it. -/

namespace Sys2Proof.Machine

/-- `acc <- v` (10_state.md R14). -/
def State.setAcc (s : State) (v : Byte) : State := { s with acc := v }

/-- `MemRead(a, 1)` (20_memory.md R31): total, no side effect. -/
def State.memRead (s : State) (a : Byte) : Byte := s.mem.read a

/-- `MemWrite(a, 1, v)` (20_memory.md R32). -/
def State.memWrite (s : State) (a v : Byte) : State := { s with mem := s.mem.write a v }

/-- `RomRead(n)`: the word of slot n (20_memory.md R34). -/
def State.romRead (s : State) (n : Byte) : Word := s.rom.read n

/-- The byte an input item delivers: EOF gives 0xFF (20_memory.md R36, 90_conflicts.md C7). -/
def InputItem.value : InputItem → Byte
  | .byte b => b
  | .eof => Config.eofByte

/-- `InRead()` on the channel (20_memory.md R36, R37): the byte and the channel after it; none while the next item is not
yet available. On an exhausted INPUT every read gives EOF and nothing is consumed. -/
def InputChannel.take (c : InputChannel) : Option (Byte × InputChannel) :=
  match c.supplied with
  | item :: rest => some (item.value, { c with supplied := rest })
  | [] => if c.ended then some (InputItem.eof.value, c) else none

/-- `OutWrite(v)`: append to the output history; never waits (20_memory.md R38). -/
def State.outWrite (s : State) (v : Byte) : State := { s with output := s.output ++ [v] }

/-- The ALU: `add8(x, y) = (x + y) mod 256`, the carry discarded (44_arith.md R84). -/
def add8 (x y : Byte) : Byte := x + y

/-- `halt(p)`: HALTED with `pc = p`, nothing else changed (40_dispatch.md R69). -/
def State.haltAt (s : State) (p : Byte) : State := { s with run := .halted, pc := p }

/-- The branch multiplexer (40_dispatch.md R66): the slot number `target` if the branch is taken, else `pc + 1`, as a
number so that it never wraps (10_state.md R17). -/
def nextSlot (pc : Byte) : Option Byte → Nat
  | some target => target.toNat
  | none => pc.toNat + 1

/-- The end of every legal instruction but D: choose the next pc and apply the terminator check (40_dispatch.md R66,
R67). The argument is the target of a taken branch, none otherwise. -/
def State.endCycle (target : Option Byte) (s : State) : State :=
  if Config.terminatorSlot.toNat ≤ nextSlot s.pc target then s.haltAt Config.terminatorSlot
  else { s with pc := BitVec.ofNat 8 (nextSlot s.pc target) }

/-- An instruction whose own effects left `s` completes: it always has a next state. -/
def complete (target : Option Byte) (s : State) : Host.Outcome State Fault Refusal :=
  .next (s.endCycle target)

/-- An input instruction (42_io.md): while no item is available it waits and changes nothing (20_memory.md R37); else the
item is consumed, `put` places its byte, and the instruction completes. -/
def withInput (put : State → Byte → State) (s : State) : Host.Outcome State Fault Refusal :=
  match s.input.take with
  | none => .next s
  | some (v, rest) => complete none (put { s with input := rest } v)

/-- TAKING THE EXCEPTION: `raise IllegalInstruction(pc, acc, op, k)` (60_exceptions.md R90): the record saves the four
values and `run` becomes FAULTED; `pc`, `acc`, RAM, input and output keep their values, and no handler is entered (R93). -/
def State.raiseIllegal (s : State) (op k : Byte) : State :=
  { s with run := .faulted, fault := { pc := s.pc, acc := s.acc, opcode := op, operand := k } }

/-- LEAVING IT: there is no return from a fault; FAULTED, like every other state, is left by reset alone (60_exceptions.md
R94). Every piece of state takes its reset value, the ROM keeps its image, and the new run reads its own INPUT
(70_reset_and_hazards.md R104, R105). -/
def State.resetRun (s : State) (input : InputChannel) : State :=
  { State.reset with input := input, rom := s.rom }

end Sys2Proof.Machine
end

