-- ==== Sys2Proof/Machine/Operands.lean ====
section
/-! DEFINITION. The six roles of the operand byte (30_encoding.md R54). The role "ignored" (R, T, D) has no operation. -/

namespace Sys2Proof.Machine

/-- Role immediate (I, S): the operand as it stands. -/
def immediate (k : Byte) : Byte := k

/-- Role direct data address (G, O, A, r, t): the operand is the RAM address. -/
def directAddr (k : Byte) : Byte := k

/-- Role pointer address (g, o, a): the RAM byte at the operand is the address, one pointer-chase. -/
def pointerAddr (s : State) (k : Byte) : Byte := s.memRead k

/-- Role direct branch target (B): the operand is the target slot. -/
def directTarget (k : Byte) : Byte := k

/-- Role pointer to a branch target (b): the RAM byte at the operand is the target slot. -/
def pointerTarget (s : State) (k : Byte) : Byte := s.memRead k

/-- The byte a direct operand names. -/
def directValue (s : State) (k : Byte) : Byte := s.memRead (directAddr k)

/-- The byte an indirect operand names. -/
def indirectValue (s : State) (k : Byte) : Byte := s.memRead (pointerAddr s k)

end Sys2Proof.Machine
end

