-- ==== Sys2Proof/Machine/Arith.lean ====
section
/-! DEFINITION. Arithmetic and immediates (44_arith.md): I, S, A, a. -/

namespace Sys2Proof.Machine

/-- I (R85): `acc <- (acc + k) mod 256`. -/
def execAddImm (k : Byte) (s : State) : Host.Outcome State Fault Refusal :=
  complete none (s.setAcc (add8 s.acc (immediate k)))

/-- S (R86): `acc <- k`. -/
def execSetImm (k : Byte) (s : State) : Host.Outcome State Fault Refusal :=
  complete none (s.setAcc (immediate k))

/-- A (R87): `acc <- (acc + MemRead(k, 1)) mod 256`. -/
def execAdd (k : Byte) (s : State) : Host.Outcome State Fault Refusal :=
  complete none (s.setAcc (add8 s.acc (directValue s k)))

/-- a (R88): `p <- MemRead(k, 1); acc <- (acc + MemRead(p, 1)) mod 256`. -/
def execAddInd (k : Byte) (s : State) : Host.Outcome State Fault Refusal :=
  complete none (s.setAcc (add8 s.acc (indirectValue s k)))

end Sys2Proof.Machine
end

