-- ==== Sys2Proof/Machine/Flags.lean ====
section
/-! DEFINITION. The CORE has no flags (10_state.md R19): the one condition is `acc = 0`, taken from the accumulator itself
when B or b executes. -/

namespace Sys2Proof.Machine

/-- The zero detect of B and b (10_state.md R19, 40_dispatch.md R72). -/
def accZero (s : State) : Bool := decide (s.acc = 0#8)

/-- What B and b hand to the next-pc step: their target if the accumulator is zero (43_branch.md R81, R82). -/
def takenIfZero (s : State) (target : Byte) : Option Byte := if accZero s then some target else none

end Sys2Proof.Machine
end

