-- ==== Sys2Proof/Machine/Branch.lean ====
section
/-! DEFINITION. Control transfer (43_branch.md): B, b. Only the net effect `next = target` is kept, never `target − 1`
(90_conflicts.md C1). -/

namespace Sys2Proof.Machine

/-- B (R81): taken if `acc = 0`, to slot k. -/
def execBranch (k : Byte) (s : State) : Host.Outcome State Fault Refusal :=
  complete (takenIfZero s (directTarget k)) s

/-- b (R82): taken if `acc = 0`, to slot `mem[k]`. -/
def execBranchInd (k : Byte) (s : State) : Host.Outcome State Fault Refusal :=
  complete (takenIfZero s (pointerTarget s k)) s

end Sys2Proof.Machine
end

