-- ==== Sys2Proof/Machine/Control.lean ====
section
/-! DEFINITION. The one control instruction (40_dispatch.md): D. -/

namespace Sys2Proof.Machine

/-- D (R68): `halt(pc)` at its own slot; no next-pc step, no terminator check; the operand is ignored. -/
def execHalt (_k : Byte) (s : State) : Host.Outcome State Fault Refusal :=
  .next (s.haltAt s.pc)

end Sys2Proof.Machine
end

