-- ==== Sys2Proof/Machine/InOut.lean ====
section
/-! DEFINITION. Input and output (42_io.md): R, r, T, t. The lowercase forms use `mem[k]` itself (90_conflicts.md C4). -/

namespace Sys2Proof.Machine

/-- R (R77): `acc <- InRead()`, waiting while no item is available; the operand is ignored. -/
def execReadAcc (_k : Byte) (s : State) : Host.Outcome State Fault Refusal :=
  withInput State.setAcc s

/-- r (R78): `v <- InRead(); MemWrite(k, 1, v)`, waiting like R. -/
def execReadMem (k : Byte) (s : State) : Host.Outcome State Fault Refusal :=
  withInput (fun s' v => s'.memWrite (directAddr k) v) s

/-- T (R79): `OutWrite(acc)`; the operand is ignored. -/
def execWriteAcc (_k : Byte) (s : State) : Host.Outcome State Fault Refusal :=
  complete none (s.outWrite s.acc)

/-- t (R80): `OutWrite(MemRead(k, 1))`. -/
def execWriteMem (k : Byte) (s : State) : Host.Outcome State Fault Refusal :=
  complete none (s.outWrite (directValue s k))

end Sys2Proof.Machine
end

