-- ==== Sys2Proof/Machine/LoadStore.lean ====
section
/-! DEFINITION. Loads and stores (41_load_store.md): G, g, O, o. -/

namespace Sys2Proof.Machine

/-- G (R73): `acc <- MemRead(k, 1)`. -/
def execLoad (k : Byte) (s : State) : Host.Outcome State Fault Refusal :=
  complete none (s.setAcc (directValue s k))

/-- g (R74): `p <- MemRead(k, 1); acc <- MemRead(p, 1)`. -/
def execLoadInd (k : Byte) (s : State) : Host.Outcome State Fault Refusal :=
  complete none (s.setAcc (indirectValue s k))

/-- O (R75): `MemWrite(k, 1, acc)`. -/
def execStore (k : Byte) (s : State) : Host.Outcome State Fault Refusal :=
  complete none (s.memWrite (directAddr k) s.acc)

/-- o (R76): `p <- MemRead(k, 1); MemWrite(p, 1, acc)`, the pointer read before the store. -/
def execStoreInd (k : Byte) (s : State) : Host.Outcome State Fault Refusal :=
  complete none (s.memWrite (pointerAddr s k) s.acc)

end Sys2Proof.Machine
end

