-- ==== Sys2Proof/Machine/Dispatch.lean ====
section
/-! DEFINITION. One arm per instruction: `Execute(op, k)` of 40_dispatch.md R63 with the next-pc step that ends it. -/

namespace Sys2Proof.Machine

/-- What an instruction does (40_dispatch.md R63); `step` calls it while RUNNING only. -/
def exec (i : Instr) (s : State) : Host.Outcome State Fault Refusal :=
  match i with
  | .load k => Sys2Proof.Machine.execLoad k s
  | .loadInd k => Sys2Proof.Machine.execLoadInd k s
  | .store k => Sys2Proof.Machine.execStore k s
  | .storeInd k => Sys2Proof.Machine.execStoreInd k s
  | .readAcc k => Sys2Proof.Machine.execReadAcc k s
  | .readMem k => Sys2Proof.Machine.execReadMem k s
  | .branch k => Sys2Proof.Machine.execBranch k s
  | .branchInd k => Sys2Proof.Machine.execBranchInd k s
  | .addImm k => Sys2Proof.Machine.execAddImm k s
  | .writeAcc k => Sys2Proof.Machine.execWriteAcc k s
  | .writeMem k => Sys2Proof.Machine.execWriteMem k s
  | .setImm k => Sys2Proof.Machine.execSetImm k s
  | .add k => Sys2Proof.Machine.execAdd k s
  | .addInd k => Sys2Proof.Machine.execAddInd k s
  | .halt k => Sys2Proof.Machine.execHalt k s

end Sys2Proof.Machine
end

