-- ==== Sys2Proof/Machine/Cycle.lean ====
section
/-! DEFINITION. The instruction cycle (40_dispatch.md R63 to R67): fetch, decode, execute or take the fault. -/

namespace Sys2Proof.Machine

/-- Fetch (R64): the word of the slot at `pc`. -/
def State.fetch (s : State) : Word := s.romRead s.pc

/-- The image with the word of the next fetch replaced (the host's placing of a program, log 3). -/
def State.placeAtPc (s : State) (w : Word) : State := { s with rom := s.rom.write s.pc w }

/-- Decode (R65) and what follows from it: a legal instruction executes, an illegal opcode takes the fault before any
other effect (60_exceptions.md R90). -/
def executeWord (w : Word) (s : State) : Host.Outcome State Fault Refusal :=
  match decode w with
  | .ok i => exec i s
  | .error _ => .next (s.raiseIllegal (wordOp w) (wordOperand w))

/-- `Step()` (R63). It is enabled only while RUNNING: HALTED and FAULTED keep every piece of state (60_exceptions.md R102,
log 4). Slot 255 is never fetched (R67): RUNNING there, which no run reaches (10_state.md R18), is a fault of the model
(log 5). -/
def cycle (s : State) : Host.Outcome State Fault Refusal :=
  match s.run with
  | .halted => .next s
  | .faulted => .next s
  | .running => if s.pc = Config.terminatorSlot then .fault .terminatorSlot else executeWord s.fetch s

end Sys2Proof.Machine
end

