-- ==== Sys2Proof/Machine/Step.lean ====
section
/-! DEFINITION. The machine's step, and the state whose next step runs a given instruction. -/

namespace Sys2Proof.Machine

/-- One architectural step (40_dispatch.md R63). -/
def step (s : State) : Host.Outcome State Fault Refusal := cycle s

/-- `s` with an instruction in the ROM slot the next step fetches. It stands for the host's placing of ROM_IMAGE before
reset is released (70_reset_and_hazards.md R106, log 3). -/
def State.withFetchWord (s : State) (nbits w : Nat) : State := s.placeAtPc (tableWord nbits w)

end Sys2Proof.Machine
end

