-- ==== Sys2Proof/Machine/Datapath.lean ====
section
/-! DEFINITION. The reference datapath of 40_dispatch.md R72, written from its table alone: control signals, two dependent
RAM reads, ALU, zero detect, writeback and branch multiplexers. It is a second design of one step, not the model's step. -/

namespace Sys2Proof.Machine

/-- The control `acc_src` (R72). -/
inductive AccSource where
  | keep
  | ramData
  | input
  | sum
  | operand
deriving DecidableEq, Repr

/-- The controls the decoder gives (R72). `immY` chooses `y = k` in the ALU (I) and `outRam` chooses RAM data for the output
(t): the table says both by naming the instructions. -/
structure Controls where
  ptr : Bool := false
  accSrc : AccSource := .keep
  immY : Bool := false
  memWr : Bool := false
  inReq : Bool := false
  outEn : Bool := false
  outRam : Bool := false
  br : Bool := false
  halt : Bool := false
  illegal : Bool := false
deriving DecidableEq, Repr

/-- The decode row of R72. -/
def controlsOf (op : Byte) : Controls :=
  match op.toNat with
  | 0x47 => { accSrc := .ramData }
  | 0x67 => { accSrc := .ramData, ptr := true }
  | 0x4F => { memWr := true }
  | 0x6F => { memWr := true, ptr := true }
  | 0x52 => { accSrc := .input, inReq := true }
  | 0x72 => { memWr := true, inReq := true }
  | 0x42 => { br := true }
  | 0x62 => { br := true, ptr := true }
  | 0x49 => { accSrc := .sum, immY := true }
  | 0x54 => { outEn := true }
  | 0x74 => { outEn := true, outRam := true }
  | 0x53 => { accSrc := .operand }
  | 0x41 => { accSrc := .sum }
  | 0x61 => { accSrc := .sum, ptr := true }
  | 0x44 => { halt := true }
  | _ => { illegal := true }

/-- Execute and writeback of R72 once the input byte `v`, if one was requested, has been taken and the channel is `ch`. -/
def datapathWriteback (c : Controls) (k : Byte) (s : State) (v : Byte) (ch : InputChannel) : State :=
  let d1 := s.memRead k
  let d2 := s.memRead d1
  let data := if c.ptr then d2 else d1
  let address := if c.ptr then d1 else k
  let y := if c.immY then k else data
  let sum := BitVec.ofNat 8 ((s.acc.toNat + y.toNat) % 256)
  let z := decide (s.acc.toNat = 0)
  let next := if c.br && z then address.toNat else s.pc.toNat + 1
  { s with
    acc := match c.accSrc with
      | .keep => s.acc
      | .ramData => data
      | .input => v
      | .sum => sum
      | .operand => k
    mem := if c.memWr then s.mem.write address (if c.inReq then v else s.acc) else s.mem
    output := if c.outEn then s.output ++ [if c.outRam then d1 else s.acc] else s.output
    input := ch
    run := if 255 ≤ next then .halted else s.run
    pc := if 255 ≤ next then 255#8 else BitVec.ofNat 8 next }

/-- One step of the datapath (R72): fetch into IR, decode, then fault, halt, or execute and write back. An input request
with no item available holds every register (20_memory.md R37). -/
def datapathStep (s : State) : Host.Outcome State Fault Refusal :=
  let ir := s.romRead s.pc
  let op := ir.extractLsb' 8 8
  let k := ir.extractLsb' 0 8
  let c := controlsOf op
  if s.run ≠ .running then .next s
  else if s.pc = 255#8 then .fault .terminatorSlot
  else if c.illegal then
    .next { s with run := .faulted, fault := { pc := s.pc, acc := s.acc, opcode := op, operand := k } }
  else if c.halt then .next { s with run := .halted }
  else if c.inReq then
    match s.input.take with
    | some (v, ch) => .next (datapathWriteback c k s v ch)
    | none => .next s
  else .next (datapathWriteback c k s 0#8 s.input)

end Sys2Proof.Machine
end

