-- ==== Sys2Proof/Machine/Loader.lean ====
section
/-! DEFINITION. The source syntax (30_encoding.md R59) and the ROM image of a source text (R60). The Loader is outside the
CORE (00_scope.md R4); what it hands to the CORE is specified, and this file is that function. -/

namespace Sys2Proof.Machine

/-- Why a source text gives no ROM image. -/
inductive LoadError where
  /-- Raised by `scan`: a character that may not stand there (R59, D14). Safe. -/
  | badCharacter (c : Byte)
  /-- Raised by `scan`: an integer greater than 255 (R59, D14). Safe. -/
  | operandTooLarge (n : Nat)
  /-- Raised by `scan`: two tokens with no separator between them (R59, D14). Safe. -/
  | missingSeparator
  /-- Raised by `romImage`: 256 tokens or more (R60, 90_conflicts.md C3). Safe. -/
  | programTooBig
  /-- Raised by `romImage`: a token that no source text spells. Safe. -/
  | illFormedToken
  /-- Raised by `romImage`: FILL_OPCODE is one of the fifteen legal bytes (30_encoding.md R56, 90_conflicts.md C8). Safe. -/
  | legalFill (op : Byte)
deriving DecidableEq, Repr

/-- Space, tab, newline or carriage return (R59). -/
def isSeparator (c : Byte) : Bool := c == 0x20#8 || c == 0x09#8 || c == 0x0A#8 || c == 0x0D#8

/-- A decimal digit (R59). -/
def isDigit (c : Byte) : Bool := 0x30 ≤ c.toNat && c.toNat ≤ 0x39

/-- Where the scan stands: between tokens, or inside a token with the value of the digits read so far, 0 for none. -/
inductive Scan where
  | between
  | inside (letter : Byte) (value : Nat)
deriving DecidableEq, Repr

/-- The tokens of a source text (R59): a letter, then an optional decimal integer, tokens separated by any run of
separators. Separators may stand before the first and after the last token, and leading zeros are read as the number's
value (log 9). -/
def scan : List Byte → Scan → Except LoadError (List Token)
  | [], .between => .ok []
  | [], .inside l n => .ok [{ letter := l, operand := n }]
  | c :: cs, .between =>
    if isSeparator c then scan cs .between
    else if isLetter c then scan cs (.inside c 0)
    else .error (.badCharacter c)
  | c :: cs, .inside l n =>
    if isSeparator c then
      match scan cs .between with
      | .ok ts => .ok ({ letter := l, operand := n } :: ts)
      | .error e => .error e
    else if isDigit c then
      if 255 < n * 10 + (c.toNat - 0x30) then .error (.operandTooLarge (n * 10 + (c.toNat - 0x30)))
      else scan cs (.inside l (n * 10 + (c.toNat - 0x30)))
    else if isLetter c then .error .missingSeparator
    else .error (.badCharacter c)

/-- The word of slot `s` in the image of a program (R60): its token, then the appended `D 0`, then the fill. -/
def slotWord (fill : Byte) (p : List Token) (s : Nat) : Word :=
  match p[s]? with
  | some t => packWord t.letter (BitVec.ofNat 8 t.operand)
  | none => if s = p.length then packWord 0x44#8 0#8 else packWord fill 0#8

/-- The ROM image of a program (R60). The fill opcode must be illegal (R56, C8). -/
def romImage (fill : Byte) (p : List Token) : Except LoadError Rom :=
  if 256 ≤ p.length then .error .programTooBig
  else if !p.all Token.wellFormed then .error .illFormedToken
  else if legalOpcodes.contains fill then .error (.legalFill fill)
  else .ok (Rom.ofFn (slotWord fill p))

/-- From source text to ROM image. -/
def assemble (fill : Byte) (text : List Byte) : Except LoadError Rom :=
  match scan text .between with
  | .ok p => romImage fill p
  | .error e => .error e

/-- The ASCII code of a decimal digit. -/
def digit (n : Nat) : Byte := BitVec.ofNat 8 (0x30 + n % 10)

/-- A number below 1000 in decimal, without leading zeros. -/
def decimal (n : Nat) : List Byte :=
  if n < 10 then [digit n]
  else if n < 100 then [digit (n / 10), digit n]
  else [digit (n / 100), digit (n / 10), digit n]

/-- A source text that spells a program, the integer always written, a space after each token (R59, R62). -/
def renderProgram : List Token → List Byte
  | [] => []
  | t :: ts => t.letter :: (decimal t.operand ++ (0x20#8 :: renderProgram ts))

end Sys2Proof.Machine
end

