-- ==== Sys2Proof/Machine/Platform.lean ====
section
/-! DEFINITION. The platform interface (60_exceptions.md R98, R99, R103; 70_reset_and_hazards.md R104 to R106): the ports as
functions of the state, the host's acts on it, and one clock edge with the input pins. -/

namespace Sys2Proof.Machine

/-- Boot (70_reset_and_hazards.md R106): ROM_IMAGE placed, reset released, INPUT given. -/
def State.boot (rom : Rom) (input : InputChannel) : State := { State.reset with input := input, rom := rom }

/-- The channel of an INPUT given whole: after its items every read gives EOF (20_memory.md R36). -/
def InputChannel.whole (items : List InputItem) : InputChannel := { supplied := items, ended := true }

/-- The channel of a host that has supplied nothing yet: a read waits (20_memory.md R37). -/
def InputChannel.awaiting : InputChannel := { supplied := [], ended := false }

/-- The host makes the next item of INPUT available (60_exceptions.md R99). -/
def State.supply (s : State) (item : InputItem) : State :=
  { s with input := { s.input with supplied := s.input.supplied ++ [item] } }

/-- The host says that INPUT has no further item. -/
def State.endInput (s : State) : State := { s with input := { s.input with ended := true } }

/-- The instruction the next step executes; none outside RUNNING, at the terminator slot and at an illegal opcode. -/
def State.current (s : State) : Option Instr :=
  match s.run with
  | .halted => none
  | .faulted => none
  | .running =>
    if s.pc = Config.terminatorSlot then none else decodeOp (wordOp s.fetch) (wordOperand s.fetch)

/-- The instructions that request input: R and r (40_dispatch.md R72). -/
def requestsInput : Instr → Bool
  | .load _ => false
  | .loadInd _ => false
  | .store _ => false
  | .storeInd _ => false
  | .readAcc _ => true
  | .readMem _ => true
  | .branch _ => false
  | .branchInd _ => false
  | .addImm _ => false
  | .writeAcc _ => false
  | .writeMem _ => false
  | .setImm _ => false
  | .add _ => false
  | .addInd _ => false
  | .halt _ => false

/-- The byte an instruction emits: T and t only (42_io.md R79, R80). -/
def emittedByte (i : Instr) (s : State) : Option Byte :=
  match i with
  | .load _ => none
  | .loadInd _ => none
  | .store _ => none
  | .storeInd _ => none
  | .readAcc _ => none
  | .readMem _ => none
  | .branch _ => none
  | .branchInd _ => none
  | .addImm _ => none
  | .writeAcc _ => some s.acc
  | .writeMem k => some (s.memRead k)
  | .setImm _ => none
  | .add _ => none
  | .addInd _ => none
  | .halt _ => none

/-- Port `in_req`: high from the first cycle of an R or r step until the item is taken (60_exceptions.md R98,
70_reset_and_hazards.md R110). -/
def inReq (s : State) : Bool :=
  match s.current with
  | some i => requestsInput i
  | none => false

/-- The byte the next step emits when it completes: under T and t only (42_io.md R79, R80). -/
def stepOutput (s : State) : Option Byte :=
  match s.current with
  | some i => emittedByte i s
  | none => none

/-- The CORE waits: an R or r is executing and no item is available (20_memory.md R37, 60_exceptions.md R102). -/
def waiting (s : State) : Bool := inReq s && s.input.supplied.isEmpty && !s.input.ended

/-- The status, diagnostic and fault outputs (60_exceptions.md R98). -/
structure StatusPorts where
  halted : Bool
  faulted : Bool
  diagPc : Byte
  diagAcc : Byte
  faultPc : Byte
  faultAcc : Byte
  faultOpcode : Byte
  faultOperand : Byte
deriving DecidableEq, Repr

/-- The status outputs between two steps (10_state.md R20, R21; 60_exceptions.md R98). Inside a multi-cycle step
`diag_pc` and `diag_acc` may show any value (70_reset_and_hazards.md R110); no such moment is modelled (log 8). -/
def statusPorts (s : State) : StatusPorts where
  halted := decide (s.run = .halted)
  faulted := decide (s.run = .faulted)
  diagPc := s.pc
  diagAcc := s.acc
  faultPc := s.fault.pc
  faultAcc := s.fault.acc
  faultOpcode := s.fault.opcode
  faultOperand := s.fault.operand

/-- Port `dbg_data` for `dbg_addr = addr` at the host's observation number `n`: `mem[addr]` while not RUNNING, any value
while RUNNING (60_exceptions.md R98; the free value of log 7). -/
def dbgData (n : Nat) (addr : Byte) (s : State) : Byte :=
  match s.run with
  | .running => Config.freeDbgData n addr
  | .halted => s.memRead addr
  | .faulted => s.memRead addr

/-- The number of the cause while FAULTED (60_exceptions.md R89). -/
def faultCause (s : State) : Option Nat :=
  match s.run with
  | .running => none
  | .halted => none
  | .faulted => some Config.illegalInstructionCause

/-- The host's exit status of a finished run (60_exceptions.md R103): 0 after HALTED, 1 after FAULTED. -/
def exitCode (s : State) : Option Nat :=
  match s.run with
  | .running => none
  | .halted => some 0
  | .faulted => some 1

/-- The input pins at a clock edge (60_exceptions.md R98). `dbg_addr` reaches no register: it is an argument of `dbgData`. -/
structure InputPins where
  rst : Bool
  inValid : Bool
  inEof : Bool
  inData : Byte
deriving DecidableEq, Repr

/-- The item the host presents: EOF if `in_eof`, and `in_data` is then ignored (60_exceptions.md R98). -/
def InputPins.item (p : InputPins) : InputItem := if p.inEof then .eof else .byte p.inData

/-- Ports `out_valid` and `out_data` in the cycle that the edge with pins `p` ends (60_exceptions.md R98,
70_reset_and_hazards.md R110): the byte of the T or t step that completes at it. At an edge with `rst = 1` no step
completes, so nothing is valid (60_exceptions.md R92, 92_eei_decisions.md D15). -/
def outPort (p : InputPins) (s : State) : Option Byte := if p.rst then none else stepOutput s

/-- The item at the pins stands as the next item of INPUT, in the place of the one the channel has there, if any (log 13). -/
def State.present (s : State) (item : InputItem) : State :=
  { s with input := { s.input with supplied := item :: s.input.supplied.tail } }

/-- One clock edge that ends a step (log 8). Reset wins over everything and the new run has been given no item yet
(60_exceptions.md R92, 70_reset_and_hazards.md R104, R105). Where `in_req` is 1, an item is taken exactly if `in_valid` is 1,
and it is the item at the pins; with `in_valid` 0 the CORE waits, whatever its channel holds (60_exceptions.md R98,
log 13). -/
def tick (p : InputPins) (s : State) : Host.Outcome State Fault Refusal :=
  if p.rst then .next (s.resetRun .awaiting)
  else if inReq s then
    if p.inValid then step (s.present p.item) else .next s
  else step s

end Sys2Proof.Machine
end

