-- ==== Sys2Proof/Safety.lean ====
section
/-! DEFINITION. The terms the statements use: what an instruction leaves as it was, where it goes next, the access tables of
10_state.md R28, runs of many steps, and the invariant of the machine. -/

namespace Sys2Proof.Machine

/-- Every RAM byte reads as before. -/
def SameRam (s t : State) : Prop := ∀ a : Byte, t.memRead a = s.memRead a

/-- Every RAM byte but the one at `addr` reads as before. -/
def SameRamBut (addr : Byte) (s t : State) : Prop := ∀ a : Byte, a ≠ addr → t.memRead a = s.memRead a

/-- The input channel and the output history are as before. -/
def SameChannels (s t : State) : Prop := t.input = s.input ∧ t.output = s.output

/-- The fault record and the ROM are as before: no instruction writes either. -/
def SameRecords (s t : State) : Prop := t.fault = s.fault ∧ t.rom = s.rom

/-- The next-pc and terminator rules (40_dispatch.md R66, R67) with next pc `n`: below 255 it becomes `pc` and the run
state stays; from 255 on the CORE halts. (Where `pc` then stands, 92_eei_decisions.md D9, is a statement of its own.) -/
def GoesTo (n : Nat) (s t : State) : Prop :=
  (n < 255 → t.pc.toNat = n ∧ t.run = s.run) ∧ (255 ≤ n → t.run = .halted)

/-- `GoesTo` the slot after this one. -/
def FallsThrough (s t : State) : Prop := GoesTo (s.pc.toNat + 1) s t

/-- The fifteen legal opcode bytes, written out from 30_encoding.md R53. -/
def LegalOpcode (op : Byte) : Prop :=
  op ∈ [0x47#8, 0x67#8, 0x4F#8, 0x6F#8, 0x52#8, 0x72#8, 0x42#8, 0x62#8, 0x49#8, 0x54#8, 0x74#8, 0x53#8, 0x41#8, 0x61#8, 0x44#8]

/-- A step happens: RUNNING, and not at the terminator slot, which no run reaches while RUNNING. -/
def Enabled (s : State) : Prop := s.run = .running ∧ s.pc ≠ 255#8

/-- Column `acc`, W, of the access matrix (10_state.md R28; R14). -/
def writesAcc : Instr → Bool
  | .load _ => true
  | .loadInd _ => true
  | .store _ => false
  | .storeInd _ => false
  | .readAcc _ => true
  | .readMem _ => false
  | .branch _ => false
  | .branchInd _ => false
  | .addImm _ => true
  | .writeAcc _ => false
  | .writeMem _ => false
  | .setImm _ => true
  | .add _ => true
  | .addInd _ => true
  | .halt _ => false

/-- Column `acc`, R, of the access matrix (10_state.md R28; R14). -/
def readsAcc : Instr → Bool
  | .load _ => false
  | .loadInd _ => false
  | .store _ => true
  | .storeInd _ => true
  | .readAcc _ => false
  | .readMem _ => false
  | .branch _ => true
  | .branchInd _ => true
  | .addImm _ => true
  | .writeAcc _ => true
  | .writeMem _ => false
  | .setImm _ => false
  | .add _ => true
  | .addInd _ => true
  | .halt _ => false

/-- Column `mem`, W, of the access matrix: the RAM address an instruction may write (10_state.md R28). -/
def ramTarget (i : Instr) (s : State) : Option Byte :=
  match i with
  | .load _ => none
  | .loadInd _ => none
  | .store k => some (directAddr k)
  | .storeInd k => some (pointerAddr s k)
  | .readAcc _ => none
  | .readMem k => some (directAddr k)
  | .branch _ => none
  | .branchInd _ => none
  | .addImm _ => none
  | .writeAcc _ => none
  | .writeMem _ => none
  | .setImm _ => none
  | .add _ => none
  | .addInd _ => none
  | .halt _ => none

/-- Column `mem`, R, of the access matrix: the RAM addresses an instruction reads (10_state.md R28). -/
def ramSources (i : Instr) (s : State) : List Byte :=
  match i with
  | .load k => [k]
  | .loadInd k => [k, s.memRead k]
  | .store _ => []
  | .storeInd k => [k]
  | .readAcc _ => []
  | .readMem _ => []
  | .branch _ => []
  | .branchInd k => [k]
  | .addImm _ => []
  | .writeAcc _ => []
  | .writeMem k => [k]
  | .setImm _ => []
  | .add k => [k]
  | .addInd k => [k, s.memRead k]
  | .halt _ => []

/-- Column `pc`, W, of the access matrix: a next pc of its own, beyond the cycle's (10_state.md R28). -/
def writesPc : Instr → Bool
  | .load _ => false
  | .loadInd _ => false
  | .store _ => false
  | .storeInd _ => false
  | .readAcc _ => false
  | .readMem _ => false
  | .branch _ => true
  | .branchInd _ => true
  | .addImm _ => false
  | .writeAcc _ => false
  | .writeMem _ => false
  | .setImm _ => false
  | .add _ => false
  | .addInd _ => false
  | .halt _ => false

/-- Column `run`, W HALTED, of the access matrix (10_state.md R28). -/
def writesRun : Instr → Bool
  | .load _ => false
  | .loadInd _ => false
  | .store _ => false
  | .storeInd _ => false
  | .readAcc _ => false
  | .readMem _ => false
  | .branch _ => false
  | .branchInd _ => false
  | .addImm _ => false
  | .writeAcc _ => false
  | .writeMem _ => false
  | .setImm _ => false
  | .add _ => false
  | .addInd _ => false
  | .halt _ => true

/-- An R or r with no item available: it waits (20_memory.md R37). -/
def Waits (i : Instr) (s : State) : Prop := requestsInput i = true ∧ s.input.take = none

/-- `n` steps, stopping at the first fault or refusal. -/
def stepN : Nat → State → Host.Outcome State Fault Refusal
  | 0, s => .next s
  | n + 1, s =>
    match step s with
    | .next t => stepN n t
    | .fault r => .fault r
    | .refused r => .refused r

/-- The same input with every EOF item replaced by the byte it delivers. -/
def State.eofAsByte (s : State) : State :=
  { s with input := { s.input with supplied := s.input.supplied.map fun item => .byte item.value } }

/-- The same state with another word in one ROM slot. -/
def State.setSlot (s : State) (n : Byte) (w : Word) : State := { s with rom := s.rom.write n w }

/-- The number a list of decimal digits spells, the first digit the highest. -/
def digitsValue (digits : List Byte) : Nat := digits.foldl (fun n c => n * 10 + (c.toNat - 0x30)) 0

/-- The RAM byte after a list of stores to a RAM of zeros, the last store first in the list (20_memory.md R31). -/
def lastStored (a : Byte) : List (Byte × Byte) → Byte
  | [] => 0#8
  | (b, v) :: older => if b = a then v else lastStored a older

/-- The state after those stores. -/
def storeAll (s : State) : List (Byte × Byte) → State
  | [] => s
  | (b, v) :: older => (storeAll s older).memWrite b v

/-- The invariant of the machine: both memories in canonical form, `pc` in 0..254 while RUNNING (10_state.md R18), the fault
record clear outside FAULTED (R21), HALTED only at the terminator or at a D (40_dispatch.md R67, R68), and FAULTED only at
an illegal slot below 255 with the record that says so (60_exceptions.md R89, R90). -/
structure CoreInvariant (s : State) : Prop where
  ram_canonical : s.mem.wf
  rom_canonical : s.rom.wf
  running_pc : s.run = .running → s.pc.toNat ≤ 254
  record_clear : s.run ≠ .faulted → s.fault = .clear
  halted_at : s.run = .halted → s.pc = 255#8 ∨ wordOp (s.romRead s.pc) = 0x44#8
  faulted_at : s.run = .faulted →
    s.pc ≠ 255#8 ∧ ¬ LegalOpcode (wordOp (s.romRead s.pc)) ∧
    s.fault = { pc := s.pc, acc := s.acc, opcode := wordOp (s.romRead s.pc), operand := wordOperand (s.romRead s.pc) }

end Sys2Proof.Machine
end

