-- ==== Sys2Proof/Certificates/Slice0/Obligations.lean ====
section
/-! DEFINITION. The statements for the provers, from the numbered rules of spec/. -/

open Sys2Proof Sys2Proof.Machine

/-! ### Encoding -/

/-- A few words written out from 30_encoding.md R52 and R53 (and 95_test_vectors.md section 2) decode to the instruction
they stand for, and an illegal one is refused with its two bytes. -/
def Obligations.SpecWordsDecode : Prop :=
  decode 0x470A#16 = .ok (.load 10#8) ∧ decode 0x6705#16 = .ok (.loadInd 5#8) ∧
  decode 0x4FFF#16 = .ok (.store 255#8) ∧ decode 0x6F00#16 = .ok (.storeInd 0#8) ∧
  decode 0x5207#16 = .ok (.readAcc 7#8) ∧ decode 0x7232#16 = .ok (.readMem 50#8) ∧
  decode 0x42FF#16 = .ok (.branch 255#8) ∧ decode 0x6201#16 = .ok (.branchInd 1#8) ∧
  decode 0x4964#16 = .ok (.addImm 100#8) ∧ decode 0x5463#16 = .ok (.writeAcc 99#8) ∧
  decode 0x7432#16 = .ok (.writeMem 50#8) ∧ decode 0x5341#16 = .ok (.setImm 65#8) ∧
  decode 0x4103#16 = .ok (.add 3#8) ∧ decode 0x6103#16 = .ok (.addInd 3#8) ∧
  decode 0x4463#16 = .ok (.halt 99#8) ∧ decode 0x6903#16 = .error (.illegalOpcode 0x69#8 3#8)

/-- 30_encoding.md R55: each of the fifteen opcode values selects its instruction, whatever the operand, and decoding
matches no other value. -/
def Obligations.OpcodeMapSelects : Prop :=
  ∀ k : Byte,
    decodeOp 0x41#8 k = some (.add k) ∧ decodeOp 0x42#8 k = some (.branch k) ∧
    decodeOp 0x44#8 k = some (.halt k) ∧ decodeOp 0x47#8 k = some (.load k) ∧
    decodeOp 0x49#8 k = some (.addImm k) ∧ decodeOp 0x4F#8 k = some (.store k) ∧
    decodeOp 0x52#8 k = some (.readAcc k) ∧ decodeOp 0x53#8 k = some (.setImm k) ∧
    decodeOp 0x54#8 k = some (.writeAcc k) ∧ decodeOp 0x61#8 k = some (.addInd k) ∧
    decodeOp 0x62#8 k = some (.branchInd k) ∧ decodeOp 0x67#8 k = some (.loadInd k) ∧
    decodeOp 0x6F#8 k = some (.storeInd k) ∧ decodeOp 0x72#8 k = some (.readMem k) ∧
    decodeOp 0x74#8 k = some (.writeMem k) ∧
    ∀ op : Byte, ¬ LegalOpcode op → decodeOp op k = none

/-- Decode and encode agree on all words and all instructions: a word decodes to `i` exactly if `i` is well formed and
encodes to that word, so no bit is dropped and no two words share an instruction (30_encoding.md R50 to R57). -/
def Obligations.DecodeIsInverseOfEncode : Prop :=
  ∀ (w : Word) (i : Instr), decode w = .ok i ↔ i.wellFormed = true ∧ encode i = w

/-- The same at the level of bytes and of the host's numbering: opcode byte first, then the operand, the rest returned. -/
def Obligations.BytesDecodeBack : Prop :=
  ∀ (i : Instr) (rest : List Byte),
    decodeBytes (encodeBytes i ++ rest) = .ok (i, rest) ∧ decodeTableWord 16 (encode i).toNat = some i

/-! ### Loads and stores -/

/-- 41_load_store.md R73. -/
def Obligations.LoadDirectResult : Prop :=
  ∀ (k : Byte) (s : State), encode (.load k) = 0x47#8 ++ k ∧
    ∃ t, exec (.load k) s = .next t ∧ t.acc = s.memRead k ∧
      SameRam s t ∧ SameChannels s t ∧ SameRecords s t ∧ FallsThrough s t

/-- 41_load_store.md R74, with its agreement with G where `mem[k] = k`. -/
def Obligations.LoadIndirectResult : Prop :=
  ∀ (k : Byte) (s : State), encode (.loadInd k) = 0x67#8 ++ k ∧
    (s.memRead k = k → exec (.loadInd k) s = exec (.load k) s) ∧
    ∃ t, exec (.loadInd k) s = .next t ∧ t.acc = s.memRead (s.memRead k) ∧
      SameRam s t ∧ SameChannels s t ∧ SameRecords s t ∧ FallsThrough s t

/-- 41_load_store.md R75: the byte at `k` and no other is stored. -/
def Obligations.StoreDirectResult : Prop :=
  ∀ (k : Byte) (s : State), encode (.store k) = 0x4F#8 ++ k ∧
    ∃ t, exec (.store k) s = .next t ∧ t.memRead (directAddr k) = s.acc ∧ SameRamBut (directAddr k) s t ∧
      directAddr k = k ∧ t.acc = s.acc ∧ SameChannels s t ∧ SameRecords s t ∧ FallsThrough s t

/-- 41_load_store.md R76: the byte at `mem[k]`, read before the store, and no other is stored; where `mem[k] = k` it is as
O. -/
def Obligations.StoreIndirectResult : Prop :=
  ∀ (k : Byte) (s : State), encode (.storeInd k) = 0x6F#8 ++ k ∧
    (s.memRead k = k → exec (.storeInd k) s = exec (.store k) s) ∧
    ∃ t, exec (.storeInd k) s = .next t ∧ t.memRead (pointerAddr s k) = s.acc ∧
      SameRamBut (pointerAddr s k) s t ∧ pointerAddr s k = s.memRead k ∧
      t.acc = s.acc ∧ SameChannels s t ∧ SameRecords s t ∧ FallsThrough s t

/-! ### Input and output -/

/-- 42_io.md R77 over the model's input channel (log 2): a supplied item is consumed and its byte, 0xFF for EOF, is loaded;
an exhausted INPUT gives 0xFF and stays exhausted; with neither the instruction waits, changing nothing. -/
def Obligations.ReadAccResult : Prop :=
  ∀ (k : Byte) (s : State),
    (∀ item rest, s.input.supplied = item :: rest →
      ∃ t, exec (.readAcc k) s = .next t ∧
        (∀ b, item = .byte b → t.acc = b) ∧ (item = .eof → t.acc = 0xFF#8) ∧
        t.input = { s.input with supplied := rest } ∧ t.output = s.output ∧
        SameRam s t ∧ SameRecords s t ∧ FallsThrough s t) ∧
    (s.input.supplied = [] → s.input.ended = true →
      ∃ t, exec (.readAcc k) s = .next t ∧ t.acc = 0xFF#8 ∧
        SameChannels s t ∧ SameRam s t ∧ SameRecords s t ∧ FallsThrough s t) ∧
    (s.input.supplied = [] → s.input.ended = false → exec (.readAcc k) s = .next s)

/-- 42_io.md R78 over the model's input channel (log 2): as R, but the byte is stored at `k` itself, no pointer-chase, and
the accumulator keeps its value. -/
def Obligations.ReadMemResult : Prop :=
  ∀ (k : Byte) (s : State),
    (∀ item rest, s.input.supplied = item :: rest →
      ∃ t, exec (.readMem k) s = .next t ∧
        (∀ b, item = .byte b → t.memRead (directAddr k) = b) ∧ (item = .eof → t.memRead (directAddr k) = 0xFF#8) ∧
        SameRamBut (directAddr k) s t ∧ directAddr k = k ∧
        t.input = { s.input with supplied := rest } ∧ t.output = s.output ∧
        t.acc = s.acc ∧ SameRecords s t ∧ FallsThrough s t) ∧
    (s.input.supplied = [] → s.input.ended = true →
      ∃ t, exec (.readMem k) s = .next t ∧ t.memRead (directAddr k) = 0xFF#8 ∧
        SameRamBut (directAddr k) s t ∧ SameChannels s t ∧ t.acc = s.acc ∧ SameRecords s t ∧ FallsThrough s t) ∧
    (s.input.supplied = [] → s.input.ended = false → exec (.readMem k) s = .next s)

/-- 42_io.md R79: exactly one byte, the raw accumulator, is appended to the output, whatever the operand. -/
def Obligations.WriteAccResult : Prop :=
  ∀ (k : Byte) (s : State), encode (.writeAcc k) = 0x54#8 ++ k ∧
    ∃ t, exec (.writeAcc k) s = .next t ∧ t.output = s.output ++ [s.acc] ∧
      t.acc = s.acc ∧ SameRam s t ∧ t.input = s.input ∧ SameRecords s t ∧ FallsThrough s t

/-- 42_io.md R80: exactly one byte, `mem[k]` and not `mem[mem[k]]`, is appended to the output. -/
def Obligations.WriteMemResult : Prop :=
  ∀ (k : Byte) (s : State), encode (.writeMem k) = 0x74#8 ++ k ∧
    ∃ t, exec (.writeMem k) s = .next t ∧ t.output = s.output ++ [s.memRead k] ∧
      t.acc = s.acc ∧ SameRam s t ∧ t.input = s.input ∧ SameRecords s t ∧ FallsThrough s t

/-! ### Control transfer and halt -/

/-- 43_branch.md R81. That `pc` is 255 after a halt at the terminator is the spec's own choice (92_eei_decisions.md D9). -/
def Obligations.BranchDirectResult : Prop :=
  ∀ (k : Byte) (s : State), encode (.branch k) = 0x42#8 ++ k ∧
    ∃ t, exec (.branch k) s = .next t ∧
      (s.acc = 0#8 → GoesTo k.toNat s t) ∧ (s.acc ≠ 0#8 → FallsThrough s t) ∧
      (s.acc = 0#8 → k = 255#8 → t.pc = 255#8) ∧
      t.acc = s.acc ∧ SameRam s t ∧ SameChannels s t ∧ SameRecords s t

/-- 43_branch.md R82, with its agreement with B where `mem[k] = k`. That `pc` is 255 after a halt at the terminator is the
spec's own choice (92_eei_decisions.md D9). -/
def Obligations.BranchIndirectResult : Prop :=
  ∀ (k : Byte) (s : State), encode (.branchInd k) = 0x62#8 ++ k ∧
    (s.memRead k = k → exec (.branchInd k) s = exec (.branch k) s) ∧
    ∃ t, exec (.branchInd k) s = .next t ∧
      (s.acc = 0#8 → GoesTo (s.memRead k).toNat s t) ∧ (s.acc ≠ 0#8 → FallsThrough s t) ∧
      (s.acc = 0#8 → s.memRead k = 255#8 → t.pc = 255#8) ∧
      t.acc = s.acc ∧ SameRam s t ∧ SameChannels s t ∧ SameRecords s t

/-- 40_dispatch.md R68, R69. That `pc` keeps the slot of the D and that all state is kept are the spec's own choices
(92_eei_decisions.md D9). -/
def Obligations.HaltResult : Prop :=
  ∀ (k : Byte) (s : State), encode (.halt k) = 0x44#8 ++ k ∧
    ∃ t, exec (.halt k) s = .next t ∧ t.run = .halted ∧ t.pc = s.pc ∧ t.acc = s.acc ∧
      SameRam s t ∧ SameChannels s t ∧ SameRecords s t

/-- B and b are the only control transfers (43_branch.md R83): after any other instruction that leaves the CORE RUNNING, the
next slot is the one after this one, but for an input instruction that waits, which leaves the state as it was (the model's
choice, log 2). -/
def Obligations.OnlyBranchesTransferControl : Prop :=
  ∀ (i : Instr) (s t : State), (∀ k, i ≠ .branch k) → (∀ k, i ≠ .branchInd k) →
    exec i s = .next t → s.run = .running → t.run = .running →
    t.pc.toNat = s.pc.toNat + 1 ∨ (requestsInput i = true ∧ s.input.take = none ∧ t = s)

/-- Where a halt leaves `pc` (40_dispatch.md R67, R68), the spec's own choice (92_eei_decisions.md D9): an instruction that
halts the CORE leaves `pc` at its own slot if it is D, and at 255 if it is any other. -/
def Obligations.HaltLeavesPc : Prop :=
  ∀ (i : Instr) (s t : State), exec i s = .next t → s.run = .running → t.run = .halted →
    ((∃ k, i = .halt k) → t.pc = s.pc) ∧ ((∀ k, i ≠ .halt k) → t.pc = 255#8)

/-! ### Arithmetic and immediates -/

/-- 44_arith.md R84: the adder is addition modulo 256, and adding `256 - v` subtracts `v` (the second is the spec's own
derivation). -/
def Obligations.AdderWraps : Prop :=
  ∀ x y : Byte, (add8 x y).toNat = (x.toNat + y.toNat) % 256 ∧
    add8 (add8 x y) (BitVec.ofNat 8 ((256 - y.toNat) % 256)) = x

/-- 44_arith.md R85; the byte `i` (0x69) is no instruction. -/
def Obligations.AddImmediateResult : Prop :=
  ∀ (k : Byte) (s : State), encode (.addImm k) = 0x49#8 ++ k ∧ decodeOp 0x69#8 k = none ∧
    ∃ t, exec (.addImm k) s = .next t ∧ t.acc.toNat = (s.acc.toNat + k.toNat) % 256 ∧
      SameRam s t ∧ SameChannels s t ∧ SameRecords s t ∧ FallsThrough s t

/-- 44_arith.md R86; the byte `s` (0x73) is no instruction. -/
def Obligations.SetImmediateResult : Prop :=
  ∀ (k : Byte) (s : State), encode (.setImm k) = 0x53#8 ++ k ∧ decodeOp 0x73#8 k = none ∧
    ∃ t, exec (.setImm k) s = .next t ∧ t.acc = k ∧
      SameRam s t ∧ SameChannels s t ∧ SameRecords s t ∧ FallsThrough s t

/-- 44_arith.md R87. -/
def Obligations.AddDirectResult : Prop :=
  ∀ (k : Byte) (s : State), encode (.add k) = 0x41#8 ++ k ∧
    ∃ t, exec (.add k) s = .next t ∧ t.acc.toNat = (s.acc.toNat + (s.memRead k).toNat) % 256 ∧
      SameRam s t ∧ SameChannels s t ∧ SameRecords s t ∧ FallsThrough s t

/-- 44_arith.md R88, with its agreement with A where `mem[k] = k`. -/
def Obligations.AddIndirectResult : Prop :=
  ∀ (k : Byte) (s : State), encode (.addInd k) = 0x61#8 ++ k ∧
    (s.memRead k = k → exec (.addInd k) s = exec (.add k) s) ∧
    ∃ t, exec (.addInd k) s = .next t ∧
      t.acc.toNat = (s.acc.toNat + (s.memRead (s.memRead k)).toNat) % 256 ∧
      SameRam s t ∧ SameChannels s t ∧ SameRecords s t ∧ FallsThrough s t

/-! ### Memory -/

/-- 20_memory.md R32: `MemWrite` sets one cell and changes no other cell and no other state. -/
def Obligations.MemWriteSetsOneCell : Prop :=
  ∀ (s : State) (a v : Byte), (s.memWrite a v).memRead a = v ∧ SameRamBut a s (s.memWrite a v) ∧
    (s.memWrite a v).acc = s.acc ∧ (s.memWrite a v).pc = s.pc ∧ (s.memWrite a v).run = s.run ∧
    SameChannels s (s.memWrite a v) ∧ SameRecords s (s.memWrite a v)

/-- 20_memory.md R31: after any stores of a run, `MemRead` gives the value of the last store to the address, or 0 if there
is none. (It is a function of the state, so it changes none, and two reads with no store between them agree.) -/
def Obligations.MemReadGivesLastStore : Prop :=
  ∀ (rom : Rom) (input : InputChannel) (stores : List (Byte × Byte)) (a : Byte),
    (storeAll (State.boot rom input) stores).memRead a = lastStored a stores

/-- 20_memory.md R35: no instruction writes the ROM, and nothing the CORE does changes it during a run. -/
def Obligations.RomNeverChanges : Prop :=
  (∀ (i : Instr) (s t : State), exec i s = .next t → t.rom = s.rom) ∧
  ∀ (n : Nat) (s t : State), stepN n s = .next t → t.rom = s.rom

/-- The write side of the access matrix (10_state.md R28, R14), for every column and for the two records that no instruction
writes: the accumulator, the RAM cell it names, the next pc beyond the cycle's, the input, the output, `run`, and the fault
record and the ROM. An instruction that waits changes nothing; D leaves `pc`; an instruction other than D writes `run` through
the terminator check only, with `pc = 255` (the halted `pc` of both is the spec's own choice, 92_eei_decisions.md D9). The
wait is over the model's input channel (log 2). -/
def Obligations.OnlyListedWrites : Prop :=
  ∀ (i : Instr) (s t : State), exec i s = .next t →
    (writesAcc i = false → t.acc = s.acc) ∧
    (∀ a, ramTarget i s ≠ some a → t.memRead a = s.memRead a) ∧
    (requestsInput i = false → t.input = s.input) ∧
    (emittedByte i s = none → t.output = s.output) ∧
    (writesPc i = false → writesRun i = false → ¬ Waits i s → FallsThrough s t) ∧
    (writesRun i = true → t.run = .halted ∧ t.pc = s.pc) ∧
    (writesRun i = false → t.run = s.run ∨ (t.run = .halted ∧ t.pc = 255#8)) ∧
    (Waits i s → t = s) ∧
    SameRecords s t

/-- The read side of the access matrix for the accumulator (10_state.md R28, R14): an instruction the matrix does not name
as a reader does the same from every value of the accumulator, and where it loads one, loads the same. An R that waits loads
none: its answer is the model's choice (log 2). -/
def Obligations.AccUnreadElsewhere : Prop :=
  ∀ (i : Instr) (s t : State) (v : Byte), readsAcc i = false → exec i s = .next t →
    ∃ t', exec i (s.setAcc v) = .next t' ∧ t'.setAcc 0#8 = t.setAcc 0#8 ∧
      (writesAcc i = true → ¬ (requestsInput i = true ∧ s.input.take = none) → t'.acc = t.acc)

/-- The read side of the access matrix for RAM (10_state.md R28): what an instruction does depends on no cell but those the
matrix names. An r that waits stores none: its answer is the model's choice (log 2). -/
def Obligations.OnlyListedCellsRead : Prop :=
  ∀ (i : Instr) (s t : State) (m : Memory), (∀ a ∈ ramSources i s, m.read a = s.memRead a) →
    exec i s = .next t →
    ∃ t', exec i { s with mem := m } = .next t' ∧
      t'.acc = t.acc ∧ t'.pc = t.pc ∧ t'.run = t.run ∧ SameChannels t t' ∧ SameRecords t t' ∧
      (¬ (requestsInput i = true ∧ s.input.take = none) →
        ∀ a, ramTarget i s = some a → t'.memRead a = t.memRead a)

/-! ### The cycle, the fault and the end of a run -/

/-- 40_dispatch.md R63 to R65: RUNNING and below the terminator, a step is exactly the meaning of the instruction that the
word of the slot at `pc` decodes to; fetching changes nothing. -/
def Obligations.StepRunsDecodedInstruction : Prop :=
  ∀ (s : State) (i : Instr), Enabled s → decode (s.romRead s.pc) = .ok i →
    i.wellFormed = true ∧ step s = exec i s

/-- An instruction placed where the next step fetches is the one that runs (40_dispatch.md R63, R64). The placing,
`withFetchWord` at the slot of any `pc`, is the model's own device (DESIGN CHOICE, log 3): in the spec the ROM is fixed for
a run (10_state.md R24). -/
def Obligations.PlacedInstructionRuns : Prop :=
  ∀ (s : State) (w : Nat) (i : Instr), Enabled s → decodeTableWord 16 w = some i →
    step (s.withFetchWord 16 w) = exec i (s.withFetchWord 16 w)

/-- Taking the illegal-instruction fault (60_exceptions.md R89, R90, R93), at every slot 0..254 and for each of the 241
illegal opcodes: what is saved, and that nothing else changes (that `pc`, `acc` and RAM are kept is the spec's own choice,
92_eei_decisions.md D10). -/
def Obligations.IllegalOpcodeFaults : Prop :=
  ∀ s : State, Enabled s → ¬ LegalOpcode (wordOp (s.romRead s.pc)) →
    ∃ t, step s = .next t ∧ t.run = .faulted ∧
      t.fault.pc = s.pc ∧ t.fault.acc = s.acc ∧ t.fault.opcode = wordOp (s.romRead s.pc) ∧
      t.fault.operand = wordOperand (s.romRead s.pc) ∧
      t.pc = s.pc ∧ t.acc = s.acc ∧ SameRam s t ∧ SameChannels s t ∧ t.rom = s.rom

/-- The illegal opcode is the only cause (60_exceptions.md R89, R92): a step from RUNNING enters FAULTED exactly if the
opcode fetched is illegal, and no instruction raises anything. That an R or r with no item available answers a next state too,
the same one, is the model's choice (DESIGN CHOICE, log 2): in the spec it waits and the step does not end (20_memory.md R37;
U11 of 93_implementation_defined.md). -/
def Obligations.OnlyIllegalOpcodesFault : Prop :=
  (∀ s t : State, Enabled s → step s = .next t →
    (t.run = .faulted ↔ ¬ LegalOpcode (wordOp (s.romRead s.pc)))) ∧
  ∀ (i : Instr) (s : State), ∃ t, exec i s = .next t ∧ t.fault = s.fault ∧ (t.run = .faulted → s.run = .faulted)

/-- HALTED and FAULTED are terminal (10_state.md R20; 60_exceptions.md R102): any number of steps keeps every piece of
state. That `step` answers the same state there is the model's choice (log 4). -/
def Obligations.TerminalStatesHold : Prop :=
  ∀ (n : Nat) (s : State), s.run ≠ .running → stepN n s = .next s

/-- The model's step stops in one case only, RUNNING at the terminator slot, which is the model's choice (log 5); it refuses
nothing. That it answers a next state in HALTED and FAULTED (log 4) and while an R or r waits (log 2), the same state in each,
is the model's choice too (all three DESIGN CHOICE). -/
def Obligations.StepStopsOnlyAtTerminator : Prop :=
  ∀ s : State, (∀ r, step s ≠ .refused r) ∧
    ((∃ f, step s = .fault f) ↔ s.run = .running ∧ s.pc = 255#8) ∧
    ((∃ t, step s = .next t) ↔ ¬ (s.run = .running ∧ s.pc = 255#8))

/-! ### Channels -/

/-- The output port and the output history agree (60_exceptions.md R98, 20_memory.md R38, R39; 70_reset_and_hazards.md
R110): a step appends exactly the byte it shows, if it shows one; so does every clock edge without reset; and at an edge with
reset nothing is valid and the new history is empty. The ports and the history are the spec's own choice (92_eei_decisions.md
D5, D7), and reading the port once per step, at the edge that ends it, is the model's (DESIGN CHOICE, log 8). -/
def Obligations.OutputPortMatchesHistory : Prop :=
  (∀ s t : State, step s = .next t → t.output = s.output ++ (stepOutput s).toList) ∧
  ∀ (p : InputPins) (s t : State), tick p s = .next t →
    (p.rst = false → t.output = s.output ++ (outPort p s).toList) ∧
    (p.rst = true → outPort p s = none ∧ t.output = [])

/-- Every byte emitted remains emitted, in order, whatever follows, a fault or a halt included (20_memory.md R39; the output
history is the spec's own choice, 92_eei_decisions.md D7). That steps go on after a fault or halt (log 4) and while an R or r
waits (log 2), changing nothing, is the model's choice. -/
def Obligations.EmittedBytesRemain : Prop :=
  ∀ (n : Nat) (s t : State), stepN n s = .next t → ∃ later, t.output = s.output ++ later ∧ later.length ≤ n

/-- A step consumes input only while it requests it, one item at most, and the first one (10_state.md R25, 20_memory.md
R36), over the model's input channel and its steps of a stopped CORE (logs 2, 4). -/
def Obligations.InputTakenOnlyOnRequest : Prop :=
  ∀ s t : State, step s = .next t →
    (inReq s = false → t.input = s.input) ∧
    (inReq s = true →
      (s.input.supplied = [] ∧ t.input = s.input) ∨
      (∃ item, s.input.supplied = item :: t.input.supplied ∧ t.input.ended = s.input.ended))

/-- The input wait (20_memory.md R37, 60_exceptions.md R102) over the model's input channel (log 2): it changes no state, and
an item or the end of the input ends it. -/
def Obligations.WaitHoldsUntilSupplied : Prop :=
  ∀ s : State, waiting s = true →
    step s = .next s ∧ waiting s.endInput = false ∧
    ∀ item, waiting (s.supply item) = false ∧ ∃ t, step (s.supply item) = .next t ∧ t.input = s.input

/-- When an item arrives makes no difference (40_dispatch.md R71): for a CORE that is not waiting for it, supplying an item
before a step or after it gives the same state. Over the model's input channel and its steps of a stopped CORE (logs 2, 4). -/
def Obligations.ArrivalTimeIrrelevant : Prop :=
  ∀ (s t : State) (item : InputItem), s.input.ended = false → waiting s = false → step s = .next t →
    step (s.supply item) = .next (t.supply item)

/-- A program cannot tell EOF from an input byte 0xFF (20_memory.md R36): over any number of steps, replacing every EOF item
by the byte 0xFF changes nothing but those items. R36's sentence is the spec's own derivation and the sequence of items its
own choice (92_eei_decisions.md D6); the channel and the steps of a stopped or waiting CORE are the model's (logs 2, 4). -/
def Obligations.EofIndistinguishableFromByte : Prop :=
  ∀ (n : Nat) (s t : State), stepN n s = .next t → stepN n s.eofAsByte = .next t.eofAsByte

/-! ### The whole machine -/

/-- The word in the terminator slot has no effect on any run (40_dispatch.md R67, the spec's own derivation; U17 of
93_implementation_defined.md). What the model's step does in a stopped CORE, RUNNING at slot 255, and in a
wait, is its choice (logs 4, 5, 2). -/
def Obligations.TerminatorSlotUnobservable : Prop :=
  ∀ (n : Nat) (s t : State) (w : Word), stepN n s = .next t → stepN n (s.setSlot 255#8 w) = .next (t.setSlot 255#8 w)

/-- Every step keeps the invariant `CoreInvariant` (10_state.md R18; 60_exceptions.md R89; and, of the spec's own choices,
followed in log 11: the record 0 outside FAULTED, 92_eei_decisions.md D8; HALTED only with `pc` at 255 or at a D, D9; `pc` and
`acc` kept in FAULTED, where the record equals them, D10). That a stopped CORE steps to itself (log 4), and a waiting one
(log 2), is the model's choice, as are the canonical forms of its memories. -/
def Obligations.StepKeepsInvariant : Prop :=
  ∀ s t : State, CoreInvariant s → step s = .next t → CoreInvariant t

/-- The invariant holds right after reset, and for every image in canonical form and every INPUT. The image and INPUT of
`State.reset` are the model's choice (logs 1, 3), and the clear fault record is the spec's own (92_eei_decisions.md D8,
log 11). -/
def Obligations.InvariantHoldsAtReset : Prop :=
  CoreInvariant State.reset ∧ ∀ (rom : Rom) (input : InputChannel), rom.wf → CoreInvariant (State.boot rom input)

/-- Whatever the ROM holds and the host supplies, a run of any length goes on without a fault or refusal of the model, the
invariant holding (60_exceptions.md R89; 10_state.md R18; 92_eei_decisions.md D16). That it goes on in HALTED and FAULTED and
while it waits is the model's choice: its step answers the same state there (logs 4, 2). The invariant rests on the spec's own
choices D8 to D10 (log 11). -/
def Obligations.EveryRunGoesOn : Prop :=
  ∀ (rom : Rom) (input : InputChannel) (n : Nat), rom.wf →
    ∃ t, stepN n (State.boot rom input) = .next t ∧ CoreInvariant t ∧ t.rom = rom

/-- The reference datapath of 40_dispatch.md R72 and the step agree in every state. R72 is the spec's own decomposition and
no contract (92_eei_decisions.md D5). Outside RUNNING and RUNNING at slot 255 the agreement is the model's choice of logs 4
and 5, built into `datapathStep` as into `step`; the wait is over the model's input channel (log 2). -/
def Obligations.DatapathRefinesStep : Prop :=
  ∀ s : State, datapathStep s = step s

/-! ### Reset, ports and loader -/

/-- What reset leaves (10_state.md R27). The ROM, the empty INPUT and the exhausted channel of `State.reset` are the model's
choice (logs 1, 3) and are not claimed here; `fault`, input position and output history are the spec's own choices
(92_eei_decisions.md D6 to D8). -/
def Obligations.ResetValues : Prop :=
  State.reset.acc = 0#8 ∧ State.reset.pc = 0#8 ∧ State.reset.run = .running ∧
  State.reset.fault = { pc := 0#8, acc := 0#8, opcode := 0#8, operand := 0#8 } ∧
  (∀ a, State.reset.memRead a = 0#8) ∧ State.reset.output = []

/-- Reset from any state (70_reset_and_hazards.md R104, R105): every piece of state takes its reset value, the new run reads
its own INPUT, and the ROM is not changed (clearing RAM on every reset is the spec's own choice, 92_eei_decisions.md D11). -/
def Obligations.ResetFromAnyState : Prop :=
  ∀ (s : State) (input : InputChannel),
    (s.resetRun input).acc = 0#8 ∧ (s.resetRun input).pc = 0#8 ∧ (s.resetRun input).run = .running ∧
    (s.resetRun input).fault = { pc := 0#8, acc := 0#8, opcode := 0#8, operand := 0#8 } ∧
    (∀ a, (s.resetRun input).memRead a = 0#8) ∧ (s.resetRun input).input = input ∧
    (s.resetRun input).output = [] ∧ (s.resetRun input).rom = s.rom

/-- Reset wins over everything and consumes no item, whatever the other pins and the state (60_exceptions.md R92,
70_reset_and_hazards.md R105; the priority is the spec's own, 92_eei_decisions.md D15). The new run's empty channel is the
model's choice (log 12). -/
def Obligations.ResetPinWins : Prop :=
  ∀ (p : InputPins) (s : State), p.rst = true →
    tick p s = .next (s.resetRun { supplied := [], ended := false })

/-- The input handshake (60_exceptions.md R98), whatever the channel holds: while `in_req` is 1, an edge with `in_valid` 0
changes nothing, and one with `in_valid` 1 takes the item at the pins: R loads `in_data`, or 0xFF if `in_eof` is set, and r
stores it at `k`; the channel loses the item it has in that place, if any; and while `in_req` is 0, an edge is a step. The port
protocol is the spec's own (92_eei_decisions.md D6). That the item at the pins takes the channel's place (log 13), and that one
edge ends a step, where 70_reset_and_hazards.md R109 lets a step take any number of edges (log 8), are the model's choice (both
DESIGN CHOICE). -/
def Obligations.InputHandshake : Prop :=
  ∀ (p : InputPins) (s : State), p.rst = false →
    (inReq s = true → p.inValid = false → tick p s = .next s) ∧
    (∀ k, s.current = some (.readAcc k) → p.inValid = true →
      ∃ t, tick p s = .next t ∧ t.acc = (if p.inEof then 0xFF#8 else p.inData) ∧
        t.input = { s.input with supplied := s.input.supplied.tail } ∧ t.output = s.output ∧
        SameRam s t ∧ SameRecords s t ∧ FallsThrough s t) ∧
    (∀ k, s.current = some (.readMem k) → p.inValid = true →
      ∃ t, tick p s = .next t ∧ t.memRead k = (if p.inEof then 0xFF#8 else p.inData) ∧ SameRamBut k s t ∧
        t.acc = s.acc ∧ t.input = { s.input with supplied := s.input.supplied.tail } ∧ t.output = s.output ∧
        SameRecords s t ∧ FallsThrough s t) ∧
    (inReq s = false → tick p s = step s)

/-- A host that serves INPUT at the pins (60_exceptions.md R99) runs the CORE as the step does: if it answers every request
with the next item of the channel, or with EOF once INPUT is exhausted, a clock edge without reset is a
step. That one edge is one step, where 70_reset_and_hazards.md R109 leaves the number of edges open, is the model's choice
(DESIGN CHOICE, log 8), as are the input channel (log 2) and the place the pins' item takes in it (log 13). -/
def Obligations.PinsThatServeInputStep : Prop :=
  ∀ (p : InputPins) (s : State), p.rst = false →
    (inReq s = true → p.inValid = true ∧
      ((∃ rest, s.input.supplied = p.item :: rest) ∨
       (s.input.supplied = [] ∧ s.input.ended = true ∧ p.item = .eof))) →
    tick p s = step s

/-- The status, diagnostic and inspection ports (10_state.md R20, R21; 60_exceptions.md R98, R103). Their form is the spec's
own (92_eei_decisions.md D8). `dbg_data` is stated for a CORE that is not RUNNING only. -/
def Obligations.StatusPortsShowState : Prop :=
  ∀ s : State,
    ((statusPorts s).halted = true ↔ s.run = .halted) ∧ ((statusPorts s).faulted = true ↔ s.run = .faulted) ∧
    ¬ ((statusPorts s).halted = true ∧ (statusPorts s).faulted = true) ∧
    (statusPorts s).diagPc = s.pc ∧ (statusPorts s).diagAcc = s.acc ∧
    (statusPorts s).faultPc = s.fault.pc ∧ (statusPorts s).faultAcc = s.fault.acc ∧
    (statusPorts s).faultOpcode = s.fault.opcode ∧ (statusPorts s).faultOperand = s.fault.operand ∧
    (s.run ≠ .running → ∀ n a, dbgData n a s = s.memRead a) ∧
    (exitCode s = some 0 ↔ s.run = .halted) ∧ (exitCode s = some 1 ↔ s.run = .faulted)

/-- The ROM image of a program (30_encoding.md R60): its tokens from slot 0, then `D 0`, then the fill; 256 tokens or more do
not load. That the fill opcode must be illegal is the spec's own choice (92_eei_decisions.md D4). That a token no source text
spells is refused is the model's choice (log 9). -/
def Obligations.LoaderBuildsImage : Prop :=
  ∀ (fill : Byte) (p : List Token),
    (256 ≤ p.length → romImage fill p = .error .programTooBig) ∧
    (p.length < 256 → p.all Token.wellFormed = false → romImage fill p = .error .illFormedToken) ∧
    (programWellFormed p = true → LegalOpcode fill → romImage fill p = .error (.legalFill fill)) ∧
    (programWellFormed p = true → ¬ LegalOpcode fill →
      ∃ rom, romImage fill p = .ok rom ∧ rom.wf ∧ ∀ s : Byte,
        (∀ t, p[s.toNat]? = some t → wordOp (rom.read s) = t.letter ∧ (wordOperand (rom.read s)).toNat = t.operand) ∧
        (s.toNat = p.length → rom.read s = 0x44#8 ++ 0#8) ∧
        (p.length < s.toNat → rom.read s = fill ++ 0#8))

/-- Every well-formed list of tokens, written out as text, is read back by the scanner (30_encoding.md R59). The text ends
with a separator after its last token; that the scanner takes one there is the model's choice (DESIGN CHOICE, log 9). -/
def Obligations.SourceTextReadsBack : Prop :=
  ∀ p : List Token, p.all Token.wellFormed = true → scan (renderProgram p) .between = .ok p

/-- What the scanner refuses (30_encoding.md R59): an integer above 255, a character that is no letter, digit or separator,
a letter that follows a token with no separator, and an integer with no letter before it; wherever they stand. The refusals
are the spec's own choice (92_eei_decisions.md D14). Beside them: a token's integer up to 255 is read as the number its
digits spell (taking leading zeros is the model's choice, log 9), and the loader answers the scanner's error. -/
def Obligations.ScannerRefusesWhatD14Refuses : Prop :=
  (∀ (p : List Token) (l : Byte) (digits rest : List Byte),
    p.all Token.wellFormed = true → isLetter l = true → digits.all isDigit = true → 255 < digitsValue digits →
    ∃ n, 255 < n ∧ scan (renderProgram p ++ l :: (digits ++ rest)) .between = .error (.operandTooLarge n)) ∧
  (∀ (l : Byte) (digits : List Byte), isLetter l = true → digits.all isDigit = true → digitsValue digits ≤ 255 →
    scan (l :: digits) .between = .ok [{ letter := l, operand := digitsValue digits }]) ∧
  (∀ (text : List Byte) (p : List Token), scan text .between = .ok p →
    p.all Token.wellFormed = true ∧
    (∀ c ∈ text, isSeparator c = true ∨ isLetter c = true ∨ isDigit c = true) ∧
    (∀ (before : List Byte) (x y : Byte) (after : List Byte), text = before ++ x :: y :: after →
      (isLetter y = true → isSeparator x = true) ∧ (isDigit y = true → isSeparator x = false)) ∧
    (∀ (c : Byte) (after : List Byte), text = c :: after → isDigit c = false)) ∧
  (∀ (fill : Byte) (text : List Byte) (e : LoadError), scan text .between = .error e → assemble fill text = .error e)
end

