-- ==== Sys2Proof/Laws/State.lean ====
section
/-! SUPPORT. One lemma per field per update of State, each true by unfolding, so that no later proof unfolds a record update. -/

namespace Sys2Proof.Machine

@[simp] theorem State.setAcc_acc (s : State) (v : Byte) : (s.setAcc v).acc = v := rfl
@[simp] theorem State.setAcc_pc (s : State) (v : Byte) : (s.setAcc v).pc = s.pc := rfl
@[simp] theorem State.setAcc_run (s : State) (v : Byte) : (s.setAcc v).run = s.run := rfl
@[simp] theorem State.setAcc_fault (s : State) (v : Byte) : (s.setAcc v).fault = s.fault := rfl
@[simp] theorem State.setAcc_mem (s : State) (v : Byte) : (s.setAcc v).mem = s.mem := rfl
@[simp] theorem State.setAcc_input (s : State) (v : Byte) : (s.setAcc v).input = s.input := rfl
@[simp] theorem State.setAcc_output (s : State) (v : Byte) : (s.setAcc v).output = s.output := rfl
@[simp] theorem State.setAcc_rom (s : State) (v : Byte) : (s.setAcc v).rom = s.rom := rfl

@[simp] theorem State.memWrite_acc (s : State) (a v : Byte) : (s.memWrite a v).acc = s.acc := rfl
@[simp] theorem State.memWrite_pc (s : State) (a v : Byte) : (s.memWrite a v).pc = s.pc := rfl
@[simp] theorem State.memWrite_run (s : State) (a v : Byte) : (s.memWrite a v).run = s.run := rfl
@[simp] theorem State.memWrite_fault (s : State) (a v : Byte) : (s.memWrite a v).fault = s.fault := rfl
@[simp] theorem State.memWrite_mem (s : State) (a v : Byte) : (s.memWrite a v).mem = s.mem.write a v := rfl
@[simp] theorem State.memWrite_input (s : State) (a v : Byte) : (s.memWrite a v).input = s.input := rfl
@[simp] theorem State.memWrite_output (s : State) (a v : Byte) : (s.memWrite a v).output = s.output := rfl
@[simp] theorem State.memWrite_rom (s : State) (a v : Byte) : (s.memWrite a v).rom = s.rom := rfl

@[simp] theorem State.outWrite_acc (s : State) (v : Byte) : (s.outWrite v).acc = s.acc := rfl
@[simp] theorem State.outWrite_pc (s : State) (v : Byte) : (s.outWrite v).pc = s.pc := rfl
@[simp] theorem State.outWrite_run (s : State) (v : Byte) : (s.outWrite v).run = s.run := rfl
@[simp] theorem State.outWrite_fault (s : State) (v : Byte) : (s.outWrite v).fault = s.fault := rfl
@[simp] theorem State.outWrite_mem (s : State) (v : Byte) : (s.outWrite v).mem = s.mem := rfl
@[simp] theorem State.outWrite_input (s : State) (v : Byte) : (s.outWrite v).input = s.input := rfl
@[simp] theorem State.outWrite_output (s : State) (v : Byte) : (s.outWrite v).output = s.output ++ [v] := rfl
@[simp] theorem State.outWrite_rom (s : State) (v : Byte) : (s.outWrite v).rom = s.rom := rfl

@[simp] theorem State.haltAt_acc (s : State) (p : Byte) : (s.haltAt p).acc = s.acc := rfl
@[simp] theorem State.haltAt_pc (s : State) (p : Byte) : (s.haltAt p).pc = p := rfl
@[simp] theorem State.haltAt_run (s : State) (p : Byte) : (s.haltAt p).run = .halted := rfl
@[simp] theorem State.haltAt_fault (s : State) (p : Byte) : (s.haltAt p).fault = s.fault := rfl
@[simp] theorem State.haltAt_mem (s : State) (p : Byte) : (s.haltAt p).mem = s.mem := rfl
@[simp] theorem State.haltAt_input (s : State) (p : Byte) : (s.haltAt p).input = s.input := rfl
@[simp] theorem State.haltAt_output (s : State) (p : Byte) : (s.haltAt p).output = s.output := rfl
@[simp] theorem State.haltAt_rom (s : State) (p : Byte) : (s.haltAt p).rom = s.rom := rfl

@[simp] theorem State.raiseIllegal_acc (s : State) (op k : Byte) : (s.raiseIllegal op k).acc = s.acc := rfl
@[simp] theorem State.raiseIllegal_pc (s : State) (op k : Byte) : (s.raiseIllegal op k).pc = s.pc := rfl
@[simp] theorem State.raiseIllegal_run (s : State) (op k : Byte) : (s.raiseIllegal op k).run = .faulted := rfl
@[simp] theorem State.raiseIllegal_fault (s : State) (op k : Byte) : (s.raiseIllegal op k).fault = { pc := s.pc, acc := s.acc, opcode := op, operand := k } := rfl
@[simp] theorem State.raiseIllegal_mem (s : State) (op k : Byte) : (s.raiseIllegal op k).mem = s.mem := rfl
@[simp] theorem State.raiseIllegal_input (s : State) (op k : Byte) : (s.raiseIllegal op k).input = s.input := rfl
@[simp] theorem State.raiseIllegal_output (s : State) (op k : Byte) : (s.raiseIllegal op k).output = s.output := rfl
@[simp] theorem State.raiseIllegal_rom (s : State) (op k : Byte) : (s.raiseIllegal op k).rom = s.rom := rfl

@[simp] theorem State.resetRun_acc (s : State) (c : InputChannel) : (s.resetRun c).acc = 0#8 := rfl
@[simp] theorem State.resetRun_pc (s : State) (c : InputChannel) : (s.resetRun c).pc = 0#8 := rfl
@[simp] theorem State.resetRun_run (s : State) (c : InputChannel) : (s.resetRun c).run = .running := rfl
@[simp] theorem State.resetRun_fault (s : State) (c : InputChannel) : (s.resetRun c).fault = .clear := rfl
@[simp] theorem State.resetRun_mem (s : State) (c : InputChannel) : (s.resetRun c).mem = [] := rfl
@[simp] theorem State.resetRun_input (s : State) (c : InputChannel) : (s.resetRun c).input = c := rfl
@[simp] theorem State.resetRun_output (s : State) (c : InputChannel) : (s.resetRun c).output = [] := rfl
@[simp] theorem State.resetRun_rom (s : State) (c : InputChannel) : (s.resetRun c).rom = s.rom := rfl

@[simp] theorem State.boot_acc (r : Rom) (c : InputChannel) : (State.boot r c).acc = 0#8 := rfl
@[simp] theorem State.boot_pc (r : Rom) (c : InputChannel) : (State.boot r c).pc = 0#8 := rfl
@[simp] theorem State.boot_run (r : Rom) (c : InputChannel) : (State.boot r c).run = .running := rfl
@[simp] theorem State.boot_fault (r : Rom) (c : InputChannel) : (State.boot r c).fault = .clear := rfl
@[simp] theorem State.boot_mem (r : Rom) (c : InputChannel) : (State.boot r c).mem = [] := rfl
@[simp] theorem State.boot_input (r : Rom) (c : InputChannel) : (State.boot r c).input = c := rfl
@[simp] theorem State.boot_output (r : Rom) (c : InputChannel) : (State.boot r c).output = [] := rfl
@[simp] theorem State.boot_rom (r : Rom) (c : InputChannel) : (State.boot r c).rom = r := rfl

@[simp] theorem State.supply_acc (s : State) (x : InputItem) : (s.supply x).acc = s.acc := rfl
@[simp] theorem State.supply_pc (s : State) (x : InputItem) : (s.supply x).pc = s.pc := rfl
@[simp] theorem State.supply_run (s : State) (x : InputItem) : (s.supply x).run = s.run := rfl
@[simp] theorem State.supply_fault (s : State) (x : InputItem) : (s.supply x).fault = s.fault := rfl
@[simp] theorem State.supply_mem (s : State) (x : InputItem) : (s.supply x).mem = s.mem := rfl
@[simp] theorem State.supply_input (s : State) (x : InputItem) : (s.supply x).input = { s.input with supplied := s.input.supplied ++ [x] } := rfl
@[simp] theorem State.supply_output (s : State) (x : InputItem) : (s.supply x).output = s.output := rfl
@[simp] theorem State.supply_rom (s : State) (x : InputItem) : (s.supply x).rom = s.rom := rfl

@[simp] theorem State.present_acc (s : State) (x : InputItem) : (s.present x).acc = s.acc := rfl
@[simp] theorem State.present_pc (s : State) (x : InputItem) : (s.present x).pc = s.pc := rfl
@[simp] theorem State.present_run (s : State) (x : InputItem) : (s.present x).run = s.run := rfl
@[simp] theorem State.present_fault (s : State) (x : InputItem) : (s.present x).fault = s.fault := rfl
@[simp] theorem State.present_mem (s : State) (x : InputItem) : (s.present x).mem = s.mem := rfl
@[simp] theorem State.present_input (s : State) (x : InputItem) : (s.present x).input = { s.input with supplied := x :: s.input.supplied.tail } := rfl
@[simp] theorem State.present_output (s : State) (x : InputItem) : (s.present x).output = s.output := rfl
@[simp] theorem State.present_rom (s : State) (x : InputItem) : (s.present x).rom = s.rom := rfl

@[simp] theorem State.endInput_acc (s : State) : s.endInput.acc = s.acc := rfl
@[simp] theorem State.endInput_pc (s : State) : s.endInput.pc = s.pc := rfl
@[simp] theorem State.endInput_run (s : State) : s.endInput.run = s.run := rfl
@[simp] theorem State.endInput_fault (s : State) : s.endInput.fault = s.fault := rfl
@[simp] theorem State.endInput_mem (s : State) : s.endInput.mem = s.mem := rfl
@[simp] theorem State.endInput_input (s : State) : s.endInput.input = { s.input with ended := true } := rfl
@[simp] theorem State.endInput_output (s : State) : s.endInput.output = s.output := rfl
@[simp] theorem State.endInput_rom (s : State) : s.endInput.rom = s.rom := rfl

@[simp] theorem State.placeAtPc_acc (s : State) (w : Word) : (s.placeAtPc w).acc = s.acc := rfl
@[simp] theorem State.placeAtPc_pc (s : State) (w : Word) : (s.placeAtPc w).pc = s.pc := rfl
@[simp] theorem State.placeAtPc_run (s : State) (w : Word) : (s.placeAtPc w).run = s.run := rfl
@[simp] theorem State.placeAtPc_fault (s : State) (w : Word) : (s.placeAtPc w).fault = s.fault := rfl
@[simp] theorem State.placeAtPc_mem (s : State) (w : Word) : (s.placeAtPc w).mem = s.mem := rfl
@[simp] theorem State.placeAtPc_input (s : State) (w : Word) : (s.placeAtPc w).input = s.input := rfl
@[simp] theorem State.placeAtPc_output (s : State) (w : Word) : (s.placeAtPc w).output = s.output := rfl
@[simp] theorem State.placeAtPc_rom (s : State) (w : Word) : (s.placeAtPc w).rom = s.rom.write s.pc w := rfl

@[simp] theorem State.setSlot_acc (s : State) (n : Byte) (w : Word) : (s.setSlot n w).acc = s.acc := rfl
@[simp] theorem State.setSlot_pc (s : State) (n : Byte) (w : Word) : (s.setSlot n w).pc = s.pc := rfl
@[simp] theorem State.setSlot_run (s : State) (n : Byte) (w : Word) : (s.setSlot n w).run = s.run := rfl
@[simp] theorem State.setSlot_fault (s : State) (n : Byte) (w : Word) : (s.setSlot n w).fault = s.fault := rfl
@[simp] theorem State.setSlot_mem (s : State) (n : Byte) (w : Word) : (s.setSlot n w).mem = s.mem := rfl
@[simp] theorem State.setSlot_input (s : State) (n : Byte) (w : Word) : (s.setSlot n w).input = s.input := rfl
@[simp] theorem State.setSlot_output (s : State) (n : Byte) (w : Word) : (s.setSlot n w).output = s.output := rfl
@[simp] theorem State.setSlot_rom (s : State) (n : Byte) (w : Word) : (s.setSlot n w).rom = s.rom.write n w := rfl

@[simp] theorem State.eofAsByte_acc (s : State) : s.eofAsByte.acc = s.acc := rfl
@[simp] theorem State.eofAsByte_pc (s : State) : s.eofAsByte.pc = s.pc := rfl
@[simp] theorem State.eofAsByte_run (s : State) : s.eofAsByte.run = s.run := rfl
@[simp] theorem State.eofAsByte_fault (s : State) : s.eofAsByte.fault = s.fault := rfl
@[simp] theorem State.eofAsByte_mem (s : State) : s.eofAsByte.mem = s.mem := rfl
@[simp] theorem State.eofAsByte_input (s : State) : s.eofAsByte.input = { s.input with supplied := s.input.supplied.map fun item => .byte item.value } := rfl
@[simp] theorem State.eofAsByte_output (s : State) : s.eofAsByte.output = s.output := rfl
@[simp] theorem State.eofAsByte_rom (s : State) : s.eofAsByte.rom = s.rom := rfl

/-- The next-pc step writes `pc` and `run` only. -/
@[simp] theorem State.endCycle_acc (o : Option Byte) (s : State) : (s.endCycle o).acc = s.acc := by
  unfold State.endCycle; split <;> rfl
@[simp] theorem State.endCycle_fault (o : Option Byte) (s : State) : (s.endCycle o).fault = s.fault := by
  unfold State.endCycle; split <;> rfl
@[simp] theorem State.endCycle_mem (o : Option Byte) (s : State) : (s.endCycle o).mem = s.mem := by
  unfold State.endCycle; split <;> rfl
@[simp] theorem State.endCycle_input (o : Option Byte) (s : State) : (s.endCycle o).input = s.input := by
  unfold State.endCycle; split <;> rfl
@[simp] theorem State.endCycle_output (o : Option Byte) (s : State) : (s.endCycle o).output = s.output := by
  unfold State.endCycle; split <;> rfl
@[simp] theorem State.endCycle_rom (o : Option Byte) (s : State) : (s.endCycle o).rom = s.rom := by
  unfold State.endCycle; split <;> rfl

theorem State.endCycle_below (o : Option Byte) (s : State) (h : nextSlot s.pc o < 255) :
    (s.endCycle o).pc = BitVec.ofNat 8 (nextSlot s.pc o) ∧ (s.endCycle o).run = s.run := by
  have h' : ¬ Config.terminatorSlot.toNat ≤ nextSlot s.pc o := by simp [Config.terminatorSlot]; omega
  simp [State.endCycle, h']

theorem State.endCycle_terminator (o : Option Byte) (s : State) (h : 255 ≤ nextSlot s.pc o) :
    (s.endCycle o).pc = 255#8 ∧ (s.endCycle o).run = .halted := by
  rw [State.endCycle, if_pos (by simpa [Config.terminatorSlot] using h)]
  exact ⟨rfl, rfl⟩

/-- Reads of RAM and ROM see through every update of another field. -/
theorem State.memRead_of_mem {s t : State} (h : t.mem = s.mem) (a : Byte) : t.memRead a = s.memRead a := by
  simp [State.memRead, h]

@[simp] theorem State.memRead_setAcc (s : State) (v a : Byte) : (s.setAcc v).memRead a = s.memRead a := rfl
@[simp] theorem State.memRead_outWrite (s : State) (v a : Byte) : (s.outWrite v).memRead a = s.memRead a := rfl
@[simp] theorem State.memRead_haltAt (s : State) (p a : Byte) : (s.haltAt p).memRead a = s.memRead a := rfl
@[simp] theorem State.memRead_raiseIllegal (s : State) (op k a : Byte) :
    (s.raiseIllegal op k).memRead a = s.memRead a := rfl
@[simp] theorem State.memRead_endCycle (o : Option Byte) (s : State) (a : Byte) :
    (s.endCycle o).memRead a = s.memRead a := by simp [State.memRead]
@[simp] theorem State.memRead_withInput (s : State) (c : InputChannel) (a : Byte) :
    State.memRead { s with input := c } a = s.memRead a := rfl

end Sys2Proof.Machine
end

