-- ==== Sys2Proof/Laws/Memory.lean ====
section
/-! SUPPORT. The laws of the sparse store and of the two memories: read after write, writes elsewhere, and that every
operation keeps the canonical form. The reading laws need no canonical form. -/

namespace Sys2Proof.Machine

section Sparse
variable {α : Type} (d v : α) (a b : Nat)

theorem Sparse.read_erase_same (m : List (Nat × α)) : Sparse.read d (Sparse.erase a m) a = d := by
  induction m with
  | nil => rfl
  | cons c m ih =>
    obtain ⟨b, x⟩ := c
    by_cases h : a = b
    · subst h; simpa [Sparse.erase] using ih
    · simp [Sparse.erase, Sparse.read, h, ih]

theorem Sparse.read_erase_other (m : List (Nat × α)) (h : b ≠ a) :
    Sparse.read d (Sparse.erase a m) b = Sparse.read d m b := by
  induction m with
  | nil => rfl
  | cons c m ih =>
    obtain ⟨e, x⟩ := c
    by_cases he : a = e
    · subst he; simp [Sparse.erase, Sparse.read, h, ih]
    · by_cases hb : b = e <;> simp [Sparse.erase, Sparse.read, he, hb, ih]

theorem Sparse.read_insert_other (m : List (Nat × α)) (h : b ≠ a) :
    Sparse.read d (Sparse.insert a v m) b = Sparse.read d m b := by
  induction m with
  | nil => simp [Sparse.insert, Sparse.read, h]
  | cons c m ih =>
    obtain ⟨e, x⟩ := c
    by_cases he : a < e
    · simp [Sparse.insert, Sparse.read, he, h]
    · by_cases hb : b = e <;> simp [Sparse.insert, Sparse.read, he, hb, ih]

theorem Sparse.read_insert_same (m : List (Nat × α)) (h : ∀ c ∈ m, c.1 ≠ a) :
    Sparse.read d (Sparse.insert a v m) a = v := by
  induction m with
  | nil => simp [Sparse.insert, Sparse.read]
  | cons c m ih =>
    obtain ⟨e, x⟩ := c
    have hne : a ≠ e := fun he => h (e, x) (by simp) he.symm
    by_cases he : a < e
    · simp [Sparse.insert, Sparse.read, he]
    · simp [Sparse.insert, Sparse.read, he, hne, ih fun c hc => h c (by simp [hc])]

theorem Sparse.mem_erase (m : List (Nat × α)) (c : Nat × α) :
    c ∈ Sparse.erase a m ↔ c ∈ m ∧ c.1 ≠ a := by
  induction m with
  | nil => simp [Sparse.erase]
  | cons e m ih =>
    obtain ⟨b, x⟩ := e
    by_cases h : a = b
    · subst h
      simp only [Sparse.erase, if_true, ih, List.mem_cons]
      constructor
      · exact fun hc => ⟨.inr hc.1, hc.2⟩
      · rintro ⟨rfl | hc, hne⟩
        · exact absurd rfl hne
        · exact ⟨hc, hne⟩
    · simp only [Sparse.erase, if_neg h, List.mem_cons, ih]
      constructor
      · rintro (rfl | hc)
        · exact ⟨.inl rfl, fun hb => h hb.symm⟩
        · exact ⟨.inr hc.1, hc.2⟩
      · rintro ⟨rfl | hc, hne⟩
        · exact .inl rfl
        · exact .inr ⟨hc, hne⟩

theorem Sparse.mem_insert (m : List (Nat × α)) (c : Nat × α) :
    c ∈ Sparse.insert a v m ↔ c = (a, v) ∨ c ∈ m := by
  induction m with
  | nil => simp [Sparse.insert]
  | cons e m ih =>
    obtain ⟨b, x⟩ := e
    by_cases h : a < b
    · simp [Sparse.insert, h]
    · simp only [Sparse.insert, if_neg h, List.mem_cons, ih]; tauto

theorem Sparse.erase_rising (m : List (Nat × α)) (h : m.Pairwise fun x y => x.1 < y.1) :
    (Sparse.erase a m).Pairwise fun x y => x.1 < y.1 := by
  induction m with
  | nil => exact .nil
  | cons e m ih =>
    obtain ⟨b, x⟩ := e
    rw [List.pairwise_cons] at h
    by_cases hb : a = b
    · simpa [Sparse.erase, hb] using hb ▸ ih h.2
    · simp only [Sparse.erase, if_neg hb, List.pairwise_cons]
      exact ⟨fun c hc => h.1 c ((Sparse.mem_erase a m c).mp hc).1, ih h.2⟩

theorem Sparse.insert_rising (m : List (Nat × α)) (h : m.Pairwise fun x y => x.1 < y.1)
    (hne : ∀ c ∈ m, c.1 ≠ a) : (Sparse.insert a v m).Pairwise fun x y => x.1 < y.1 := by
  induction m with
  | nil => simp [Sparse.insert]
  | cons e m ih =>
    obtain ⟨b, x⟩ := e
    have hm := List.pairwise_cons.mp h
    by_cases hb : a < b
    · simp only [Sparse.insert, if_pos hb, List.pairwise_cons]
      refine ⟨fun c hc => ?_, hm.1, hm.2⟩
      rcases List.mem_cons.mp hc with rfl | hc
      · exact hb
      · exact lt_trans hb (hm.1 c hc)
    · have hba : b < a := lt_of_le_of_ne (not_lt.mp hb) (hne (b, x) (by simp))
      simp only [Sparse.insert, if_neg hb, List.pairwise_cons]
      refine ⟨fun c hc => ?_, ih hm.2 fun c hc => hne c (by simp [hc])⟩
      rcases (Sparse.mem_insert v a m c).mp hc with rfl | hc
      · exact hba
      · exact hm.1 c hc

variable [DecidableEq α]

theorem Sparse.read_write_same (m : List (Nat × α)) : Sparse.read d (Sparse.write d m a v) a = v := by
  unfold Sparse.write
  split
  · next h => rw [h, Sparse.read_erase_same]
  · exact Sparse.read_insert_same d v a _ fun c hc => ((Sparse.mem_erase a m c).mp hc).2

theorem Sparse.read_write_other (m : List (Nat × α)) (h : b ≠ a) :
    Sparse.read d (Sparse.write d m a v) b = Sparse.read d m b := by
  unfold Sparse.write
  split
  · exact Sparse.read_erase_other d a b m h
  · rw [Sparse.read_insert_other d v a b _ h, Sparse.read_erase_other d a b m h]

/-- A write below `size` keeps the canonical form. -/
theorem Sparse.write_wf (size : Nat) (m : List (Nat × α)) (h : Sparse.wf size d m) (ha : a < size) :
    Sparse.wf size d (Sparse.write d m a v) := by
  have hr := Sparse.erase_rising a m h.1
  unfold Sparse.write
  split
  · exact ⟨hr, fun c hc => h.2 c ((Sparse.mem_erase a m c).mp hc).1⟩
  · next hv =>
    refine ⟨Sparse.insert_rising v a _ hr fun c hc => ((Sparse.mem_erase a m c).mp hc).2, fun c hc => ?_⟩
    rcases (Sparse.mem_insert v a _ c).mp hc with rfl | hc
    · exact ⟨ha, hv⟩
    · exact h.2 c ((Sparse.mem_erase a m c).mp hc).1

end Sparse

@[simp] theorem Memory.read_write_same (m : Memory) (a v : Byte) : (m.write a v).read a = v :=
  Sparse.read_write_same _ _ _ _

theorem Memory.read_write_other (m : Memory) (a b v : Byte) (h : b ≠ a) : (m.write a v).read b = m.read b :=
  Sparse.read_write_other _ _ _ _ _ fun e => h (BitVec.eq_of_toNat_eq e)

@[simp] theorem Memory.read_nil (a : Byte) : Memory.read [] a = 0#8 := rfl

/-- Every store keeps the RAM's canonical form. -/
theorem Memory.write_wf (m : Memory) (a v : Byte) (h : m.wf) : (m.write a v).wf :=
  Sparse.write_wf _ _ _ _ m h a.isLt

@[simp] theorem Rom.read_write_same (m : Rom) (a : Byte) (w : Word) : (m.write a w).read a = w :=
  Sparse.read_write_same _ _ _ _

theorem Rom.read_write_other (m : Rom) (a b : Byte) (w : Word) (h : b ≠ a) : (m.write a w).read b = m.read b :=
  Sparse.read_write_other _ _ _ _ _ fun e => h (BitVec.eq_of_toNat_eq e)

/-- Placing a word keeps the ROM's canonical form. -/
theorem Rom.write_wf (m : Rom) (a : Byte) (w : Word) (h : m.wf) : (m.write a w).wf :=
  Sparse.write_wf _ _ _ _ m h a.isLt

/-- The image of a function is in canonical form. -/
theorem Rom.ofFn_wf (f : Nat → Word) : (Rom.ofFn f).wf := by
  constructor
  · refine List.Pairwise.filter _ ?_
    rw [List.pairwise_map]
    exact List.pairwise_lt_range
  · intro c hc
    simp only [Rom.ofFn, List.mem_filter, List.mem_map, List.mem_range, decide_eq_true_eq] at hc
    obtain ⟨⟨s, hs, rfl⟩, hw⟩ := hc
    exact ⟨hs, hw⟩

/-- Reading a filtered map over a list of slots gives the function's word at a listed slot, the default elsewhere. -/
theorem Rom.read_slots (f : Nat → Word) (a : Nat) (l : List Nat) :
    Sparse.read romDefault ((l.map fun s => (s, f s)).filter fun c => decide (c.2 ≠ romDefault)) a =
      if a ∈ l then f a else romDefault := by
  induction l with
  | nil => rfl
  | cons b l ih =>
    simp only [ne_eq, decide_not] at ih ⊢
    by_cases hw : f b = romDefault
    · by_cases hab : a = b
      · subst hab; simp [hw, ih]
      · simp [hw, hab, ih]
    · by_cases hab : a = b
      · subst hab; simp [hw, Sparse.read]
      · simp [hw, hab, Sparse.read, ih]

/-- Every slot of the image of a function holds the function's word. -/
theorem Rom.read_ofFn (f : Nat → Word) (s : Byte) : (Rom.ofFn f).read s = f s.toNat := by
  have h : s.toNat < 256 := s.isLt
  rw [Rom.read, Rom.ofFn, Rom.read_slots, if_pos (by simpa [Config.romSlots] using h)]

/-- A RAM write seen through the state's own read. -/
@[simp] theorem State.memRead_memWrite_same (s : State) (a v : Byte) : (s.memWrite a v).memRead a = v :=
  Memory.read_write_same _ _ _

theorem State.memRead_memWrite_other (s : State) (a b v : Byte) (h : b ≠ a) :
    (s.memWrite a v).memRead b = s.memRead b :=
  Memory.read_write_other _ _ _ _ h

theorem reset_ram_wf : State.reset.mem.wf := by decide

theorem reset_rom_wf : State.reset.rom.wf := by decide

end Sys2Proof.Machine
end

