-- ==== Sys2Proof/Laws/Ops.lean ====
section
/-! SUPPORT. For each shared operation, once, everything it can do. -/

namespace Sys2Proof.Machine

/-- The operand roles as the addresses and bytes they name. -/
@[simp] theorem immediate_eq (k : Byte) : immediate k = k := rfl
@[simp] theorem directAddr_eq (k : Byte) : directAddr k = k := rfl
@[simp] theorem pointerAddr_eq (s : State) (k : Byte) : pointerAddr s k = s.memRead k := rfl
@[simp] theorem directTarget_eq (k : Byte) : directTarget k = k := rfl
@[simp] theorem pointerTarget_eq (s : State) (k : Byte) : pointerTarget s k = s.memRead k := rfl
@[simp] theorem directValue_eq (s : State) (k : Byte) : directValue s k = s.memRead k := rfl
@[simp] theorem indirectValue_eq (s : State) (k : Byte) : indirectValue s k = s.memRead (s.memRead k) := rfl

/-- The adder is addition modulo 256. -/
@[simp] theorem add8_toNat (x y : Byte) : (add8 x y).toNat = (x.toNat + y.toNat) % 256 := by simp [add8]

/-- An instruction that completes answers a next state, always. -/
@[simp] theorem complete_eq (o : Option Byte) (s : State) : complete o s = .next (s.endCycle o) := rfl

/-- The next-pc step: below 255 it moves on, from 255 on it halts at the terminator; nothing else changes. -/
theorem endCycle_cases (o : Option Byte) (s : State) :
    (nextSlot s.pc o < 255 ∧ s.endCycle o = { s with pc := BitVec.ofNat 8 (nextSlot s.pc o) }) ∨
    (255 ≤ nextSlot s.pc o ∧ s.endCycle o = s.haltAt 255#8) := by
  by_cases h : nextSlot s.pc o < 255
  · have h' : ¬ Config.terminatorSlot.toNat ≤ nextSlot s.pc o := by simp [Config.terminatorSlot]; omega
    exact .inl ⟨h, by rw [State.endCycle, if_neg h']⟩
  · have h' : Config.terminatorSlot.toNat ≤ nextSlot s.pc o := by simp [Config.terminatorSlot]; omega
    exact .inr ⟨by omega, by rw [State.endCycle, if_pos h']; rfl⟩

/-- The next-pc step as one update of `pc` and `run`. -/
theorem endCycle_eq (o : Option Byte) (s : State) :
    s.endCycle o = { s with
      pc := if 255 ≤ nextSlot s.pc o then 255#8 else BitVec.ofNat 8 (nextSlot s.pc o)
      run := if 255 ≤ nextSlot s.pc o then .halted else s.run } := by
  rcases endCycle_cases o s with ⟨h, e⟩ | ⟨h, e⟩
  · simp [e, show ¬ 255 ≤ nextSlot s.pc o by omega]
  · simp [e, h, State.haltAt]

/-- The next-pc step goes where the branch multiplexer says. -/
theorem endCycle_goesTo (o : Option Byte) (s : State) : GoesTo (nextSlot s.pc o) s (s.endCycle o) := by
  constructor
  · intro h
    obtain ⟨hp, hr⟩ := State.endCycle_below o s h
    exact ⟨by rw [hp, BitVec.toNat_ofNat]; omega, hr⟩
  · exact fun h => (State.endCycle_terminator o s h).2

/-- Taking from the channel: the next item, EOF from an exhausted INPUT, or a wait. -/
theorem take_cases (c : InputChannel) :
    (∃ item rest, c.supplied = item :: rest ∧ c.take = some (item.value, { c with supplied := rest })) ∨
    (c.supplied = [] ∧ c.ended = true ∧ c.take = some (0xFF#8, c)) ∨
    (c.supplied = [] ∧ c.ended = false ∧ c.take = none) := by
  obtain ⟨supplied, ended⟩ := c
  cases supplied with
  | cons item rest => exact .inl ⟨item, rest, rfl, rfl⟩
  | nil =>
    cases ended
    · exact .inr (.inr ⟨rfl, rfl, rfl⟩)
    · exact .inr (.inl ⟨rfl, rfl, rfl⟩)

/-- An input instruction waits with the state unchanged, or places the byte it took and completes. -/
theorem withInput_cases (put : State → Byte → State) (s : State) :
    (s.input.take = none ∧ withInput put s = .next s) ∨
    (∃ v c, s.input.take = some (v, c) ∧
      withInput put s = .next ((put { s with input := c } v).endCycle none)) := by
  unfold withInput
  cases h : s.input.take with
  | none => exact .inl ⟨rfl, rfl⟩
  | some p => exact .inr ⟨p.1, p.2, rfl, rfl⟩

/-- The operands of a branch: the next slot is the target if the accumulator is zero, else the slot after. -/
theorem nextSlot_takenIfZero (s : State) (target : Byte) :
    nextSlot s.pc (takenIfZero s target) = if s.acc = 0#8 then target.toNat else s.pc.toNat + 1 := by
  by_cases h : s.acc = 0#8 <;> simp [takenIfZero, accZero, h, nextSlot]

/-- What a step can do, once for every later proof. -/
theorem step_cases (s : State) :
    (s.run ≠ .running ∧ step s = .next s) ∨
    (s.run = .running ∧ s.pc = 255#8 ∧ step s = .fault .terminatorSlot) ∨
    (Enabled s ∧ ∃ i, decode (s.romRead s.pc) = .ok i ∧ step s = exec i s) ∨
    (Enabled s ∧ (∃ e, decode (s.romRead s.pc) = .error e) ∧
      step s = .next (s.raiseIllegal (wordOp (s.romRead s.pc)) (wordOperand (s.romRead s.pc)))) := by
  unfold step cycle
  cases hr : s.run with
  | halted => exact .inl ⟨by simp, rfl⟩
  | faulted => exact .inl ⟨by simp, rfl⟩
  | running =>
    by_cases hp : s.pc = 255#8
    · exact .inr (.inl ⟨rfl, hp, by simp [hp, Config.terminatorSlot]⟩)
    · have hpt : ¬ s.pc = Config.terminatorSlot := hp
      refine .inr (.inr ?_)
      simp only [if_neg hpt, executeWord, State.fetch]
      cases hd : decode (s.romRead s.pc) with
      | ok i => exact .inl ⟨⟨hr, hp⟩, i, rfl, rfl⟩
      | error e => exact .inr ⟨⟨hr, hp⟩, ⟨e, rfl⟩, rfl⟩

/-- What the next step is does not depend on the input channel. -/
theorem current_withChannel (s : State) (c : InputChannel) : State.current { s with input := c } = s.current := rfl

@[simp] theorem current_present (s : State) (x : InputItem) : (s.present x).current = s.current := rfl

@[simp] theorem inReq_present (s : State) (x : InputItem) : inReq (s.present x) = inReq s := rfl

/-- What a clock edge can do: reset, take the item at the pins, hold an unanswered request, or step. -/
theorem tick_cases (p : InputPins) (s : State) :
    (p.rst = true ∧ tick p s = .next (s.resetRun .awaiting)) ∨
    (p.rst = false ∧ inReq s = true ∧ p.inValid = true ∧ tick p s = step (s.present p.item)) ∨
    (p.rst = false ∧ inReq s = true ∧ p.inValid = false ∧ tick p s = .next s) ∨
    (p.rst = false ∧ inReq s = false ∧ tick p s = step s) := by
  cases hr : p.rst <;> cases hq : inReq s <;> cases hv : p.inValid <;> simp [tick, hr, hq, hv]

/-- Runs of many steps, unfolded once: none, and one more after a step that answers a next state. -/
@[simp] theorem stepN_zero (s : State) : stepN 0 s = .next s := rfl

theorem stepN_succ_of_next {s u : State} (h : step s = .next u) (n : Nat) : stepN (n + 1) s = stepN n u := by
  simp [stepN, h]

theorem stepN_succ_cases {n : Nat} {s t : State} (h : stepN (n + 1) s = .next t) :
    ∃ u, step s = .next u ∧ stepN n u = .next t := by
  unfold stepN at h
  split at h
  · exact ⟨_, ‹_›, h⟩
  · cases h
  · cases h

end Sys2Proof.Machine
end

