-- ==== Sys2Proof/Laws/PerInstr.lean ====
section
/-! SUPPORT. Facts about each instruction as syntax, one lemma per constructor. -/

namespace Sys2Proof.Laws

/-- The word of an instruction holds its opcode in bits 15..8 and its operand in bits 7..0 (30_encoding.md R52). -/
def FieldsOfWord.Statement (i : Instr) : Prop :=
  wordOp (encode i) = i.opcode ∧ wordOperand (encode i) = i.operand

/-- The two fields of a packed word. -/
theorem wordOp_packWord (op k : Byte) : wordOp (packWord op k) = op := by
  ext i hi
  have h : (packWord op k).getLsbD (8 + i) = _ := BitVec.getLsbD_append (x := op) (y := k) (i := 8 + i)
  simp [wordOp, h, BitVec.getLsbD_eq_getElem hi]

theorem wordOperand_packWord (op k : Byte) : wordOperand (packWord op k) = k := by
  ext i hi
  have h : (packWord op k).getLsbD i = _ := BitVec.getLsbD_append (x := op) (y := k) (i := i)
  simp [wordOperand, h, hi]

/-- The same for any instruction. -/
theorem FieldsOfWord.of_packWord (i : Instr) : FieldsOfWord.Statement i :=
  ⟨wordOp_packWord _ _, wordOperand_packWord _ _⟩

theorem FieldsOfWord.load (k : Byte) : FieldsOfWord.Statement (.load k) := FieldsOfWord.of_packWord _
theorem FieldsOfWord.loadInd (k : Byte) : FieldsOfWord.Statement (.loadInd k) := FieldsOfWord.of_packWord _
theorem FieldsOfWord.store (k : Byte) : FieldsOfWord.Statement (.store k) := FieldsOfWord.of_packWord _
theorem FieldsOfWord.storeInd (k : Byte) : FieldsOfWord.Statement (.storeInd k) := FieldsOfWord.of_packWord _
theorem FieldsOfWord.readAcc (k : Byte) : FieldsOfWord.Statement (.readAcc k) := FieldsOfWord.of_packWord _
theorem FieldsOfWord.readMem (k : Byte) : FieldsOfWord.Statement (.readMem k) := FieldsOfWord.of_packWord _
theorem FieldsOfWord.branch (k : Byte) : FieldsOfWord.Statement (.branch k) := FieldsOfWord.of_packWord _
theorem FieldsOfWord.branchInd (k : Byte) : FieldsOfWord.Statement (.branchInd k) := FieldsOfWord.of_packWord _
theorem FieldsOfWord.addImm (k : Byte) : FieldsOfWord.Statement (.addImm k) := FieldsOfWord.of_packWord _
theorem FieldsOfWord.writeAcc (k : Byte) : FieldsOfWord.Statement (.writeAcc k) := FieldsOfWord.of_packWord _
theorem FieldsOfWord.writeMem (k : Byte) : FieldsOfWord.Statement (.writeMem k) := FieldsOfWord.of_packWord _
theorem FieldsOfWord.setImm (k : Byte) : FieldsOfWord.Statement (.setImm k) := FieldsOfWord.of_packWord _
theorem FieldsOfWord.add (k : Byte) : FieldsOfWord.Statement (.add k) := FieldsOfWord.of_packWord _
theorem FieldsOfWord.addInd (k : Byte) : FieldsOfWord.Statement (.addInd k) := FieldsOfWord.of_packWord _
theorem FieldsOfWord.halt (k : Byte) : FieldsOfWord.Statement (.halt k) := FieldsOfWord.of_packWord _

end Sys2Proof.Laws
end

