-- ==== Sys2Proof/Tests/Slice0.lean ====
section
/-! SUPPORT. Tests. Expected results are the encodings of 30_encoding.md and the vectors of 95_test_vectors.md; the
witnesses show that the hypotheses of the statements can be met. -/

namespace Sys2Proof.Tests
open Sys2Proof Sys2Proof.Machine

/-- A RUNNING state with one word in the slot at `pc`. -/
def stateAt (pc acc : Byte) (mem : Memory) (w : Word) : State :=
  { State.reset with acc := acc, pc := pc, mem := mem, rom := [(pc.toNat, w)] }

/-- `stateAt` slot 0 with an input channel. -/
def stateIn (w : Word) (items : List InputItem) (ended : Bool) : State :=
  { stateAt 0#8 5#8 [] w with input := { supplied := items, ended := ended } }

/-- One step answers a next state with the property. -/
def stepsTo (s : State) (p : State → Bool) : Bool :=
  match step s with
  | .next t => p t
  | .fault _ => false
  | .refused _ => false

/-- One clock edge answers a next state with the property. -/
def ticksTo (p : InputPins) (s : State) (q : State → Bool) : Bool :=
  match tick p s with
  | .next t => q t
  | .fault _ => false
  | .refused _ => false

/-! ### Decoding: words written out bit by bit from 30_encoding.md R52 and R53 -/

theorem test_decode_load : decode 0b0100011100001010#16 = .ok (.load 10#8) := by decide
theorem test_decode_loadInd : decode 0b0110011100000101#16 = .ok (.loadInd 5#8) := by decide
theorem test_decode_store : decode 0b0100111111111111#16 = .ok (.store 255#8) := by decide
theorem test_decode_storeInd : decode 0b0110111100000000#16 = .ok (.storeInd 0#8) := by decide
theorem test_decode_readAcc : decode 0b0101001000000111#16 = .ok (.readAcc 7#8) := by decide
theorem test_decode_readMem : decode 0b0111001000110010#16 = .ok (.readMem 50#8) := by decide
theorem test_decode_branch : decode 0b0100001011111111#16 = .ok (.branch 255#8) := by decide
theorem test_decode_branchInd : decode 0b0110001000000001#16 = .ok (.branchInd 1#8) := by decide
theorem test_decode_addImm : decode 0b0100100101100100#16 = .ok (.addImm 100#8) := by decide
theorem test_decode_writeAcc : decode 0b0101010001100011#16 = .ok (.writeAcc 99#8) := by decide
theorem test_decode_writeMem : decode 0b0111010000110010#16 = .ok (.writeMem 50#8) := by decide
theorem test_decode_setImm : decode 0b0101001101000001#16 = .ok (.setImm 65#8) := by decide
theorem test_decode_add : decode 0b0100000100000011#16 = .ok (.add 3#8) := by decide
theorem test_decode_addInd : decode 0b0110000100000011#16 = .ok (.addInd 3#8) := by decide
theorem test_decode_halt : decode 0b0100010001100011#16 = .ok (.halt 99#8) := by decide

/-- `i`, `s`, `d` and a byte that is no letter are illegal although I, S and D are legal (R56). -/
theorem test_decode_illegal :
    [0x69#8, 0x73#8, 0x64#8, 0x00#8, 0xFF#8, 0x58#8].map (decodeOp · 3#8) = List.replicate 6 none := by decide
theorem test_decode_bytes : decodeBytes [0x53#8, 65#8, 0x54#8] = .ok (.setImm 65#8, [0x54#8]) := by decide
theorem test_decode_truncated : decodeBytes [0x53#8] = .error .truncated := by decide
theorem test_decode_table_word : decodeTableWord 16 0x470A = some (.load 10#8) := by decide
theorem test_encode_words : [Instr.load 10#8, .storeInd 0#8, .branch 255#8, .halt 99#8].map encode =
    [0x470A#16, 0x6F00#16, 0x42FF#16, 0x4463#16] := by decide

/-! ### Well-formedness: each check refuses an ill-formed term -/

theorem test_wf_token_letter : Token.wellFormed { letter := 0x35#8, operand := 1 } = false := by decide
theorem test_wf_token_operand : Token.wellFormed { letter := 0x53#8, operand := 256 } = false := by decide
theorem test_wf_token_ok : Token.wellFormed { letter := 0x7A#8, operand := 255 } = true := by decide
theorem test_wf_program_length :
    programWellFormed (List.replicate 256 { letter := 0x49#8, operand := 1 }) = false := by
  rw [programWellFormed, List.length_replicate]; rfl
theorem test_wf_program_token : programWellFormed [{ letter := 0x49#8, operand := 256 }] = false := by decide
theorem test_wf_memory_order : ¬ Memory.wf [(3, 1#8), (2, 1#8)] := by decide
theorem test_wf_memory_default : ¬ Memory.wf [(3, 0#8)] := by decide
theorem test_wf_memory_range : ¬ Memory.wf [(256, 1#8)] := by decide
theorem test_memory_write_removes : Memory.write [(3, 1#8), (7, 2#8)] 3#8 0#8 = [(7, 2#8)] := by decide
theorem test_memory_write_inserts : Memory.write [(3, 1#8), (7, 2#8)] 5#8 9#8 = [(3, 1#8), (5, 9#8), (7, 2#8)] := by
  decide

/-! ### Loads and stores: vectors LS4, LS5, LS6, LS8, LS9, LS1 -/

theorem test_LS1 : stepsTo (stateAt 0#8 0#8 [(10, 0x2A#8)] 0x470A#16)
    (fun t => t.acc == 0x2A#8 && t.mem == [(10, 0x2A#8)] && t.pc == 1#8) = true := by decide
theorem test_LS4 : stepsTo (stateAt 0#8 0#8 [(5, 20#8), (20, 7#8)] 0x6705#16) (fun t => t.acc == 7#8) = true := by decide
theorem test_LS5 : stepsTo (stateAt 0#8 0#8 [(0, 0x99#8)] 0x6705#16) (fun t => t.acc == 0x99#8) = true := by decide
theorem test_LS6 : stepsTo (stateAt 0#8 3#8 [] 0x4F0A#16) (fun t => t.mem == [(10, 3#8)] && t.acc == 3#8) = true := by
  decide
theorem test_LS8 : stepsTo (stateAt 0#8 7#8 [(0, 20#8)] 0x6F00#16)
    (fun t => t.mem == [(0, 20#8), (20, 7#8)]) = true := by decide
theorem test_LS9 : stepsTo (stateAt 0#8 9#8 [(4, 4#8)] 0x6F04#16) (fun t => t.mem == [(4, 9#8)]) = true := by decide

/-! ### Input and output: vectors IO2, IO4, IO5, IO6, IO8, IO10, IO11 -/

theorem test_IO2_IO4 : (stepsTo (stateIn 0x5200#16 [] true)
      (fun t => t.acc == 0xFF#8 && t.input == { supplied := [], ended := true } && t.pc == 1#8) &&
    stepsTo (stateIn 0x5200#16 [.eof, .byte 0x42#8] true)
      (fun t => t.acc == 0xFF#8 && t.input.supplied == [.byte 0x42#8])) = true := by decide
theorem test_IO5 : stepsTo (stateIn 0x7232#16 [.byte 0x48#8, .byte 0x69#8] true)
    (fun t => t.mem == [(50, 0x48#8)] && t.acc == 5#8 && t.input.supplied == [.byte 0x69#8]) = true := by decide
theorem test_IO6 : stepsTo (stateIn 0x7232#16 [] true) (fun t => t.mem == [(50, 0xFF#8)]) = true := by decide
theorem test_IO8 : stepsTo (stateAt 0#8 0xFF#8 [] 0x5463#16) (fun t => t.output == [0xFF#8]) = true := by decide
theorem test_IO10 : stepsTo (stateAt 0#8 1#8 [(3, 0x77#8), (50, 3#8)] 0x7432#16)
    (fun t => t.output == [3#8] && t.acc == 1#8) = true := by decide
theorem test_IO11 : stepsTo (stateIn 0x5200#16 [] false) (fun t => t == stateIn 0x5200#16 [] false) = true := by decide

/-! ### Control transfer: vectors BR1 to BR4, BR7, BR9 -/

theorem test_BR1_BR2 : (stepsTo (stateAt 3#8 0#8 [] 0x4207#16) (fun t => t.pc == 7#8 && t.run == .running) &&
    stepsTo (stateAt 3#8 1#8 [] 0x4207#16) (fun t => t.pc == 4#8)) = true := by decide
theorem test_BR3_BR4 : (stepsTo (stateAt 9#8 0#8 [] 0x4200#16) (fun t => t.pc == 0#8 && t.run == .running) &&
    stepsTo (stateAt 1#8 0#8 [] 0x42FF#16) (fun t => t.pc == 255#8 && t.run == .halted)) = true := by decide
theorem test_BR7 : stepsTo (stateAt 10#8 0#8 [(1, 12#8)] 0x6201#16) (fun t => t.pc == 12#8) = true := by decide
theorem test_BR9 : stepsTo (stateAt 10#8 0#8 [(1, 255#8)] 0x6201#16)
    (fun t => t.pc == 255#8 && t.run == .halted) = true := by decide

/-! ### Arithmetic and immediates: vectors AR1, AR5, AR7, AR9, AR11 -/

theorem test_AR1 : stepsTo (stateAt 0#8 255#8 [] 0x4901#16) (fun t => t.acc == 0#8) = true := by decide
theorem test_AR5 : stepsTo (stateAt 0#8 200#8 [] 0x4964#16) (fun t => t.acc == 44#8) = true := by decide
theorem test_AR7 : stepsTo (stateAt 0#8 0#8 [] 0x53FF#16) (fun t => t.acc == 255#8) = true := by decide
theorem test_AR9 : stepsTo (stateAt 0#8 255#8 [(3, 255#8)] 0x4103#16) (fun t => t.acc == 254#8) = true := by decide
theorem test_AR11 : stepsTo (stateAt 0#8 5#8 [(0, 20#8), (20, 7#8)] 0x6100#16) (fun t => t.acc == 12#8) = true := by decide

/-! ### Cycle, halt and fault: vectors DI2, DI3, DI5, DI6, DI7, DI10 -/

theorem test_DI2 : stepsTo (stateAt 17#8 4#8 [] 0x4463#16)
    (fun t => t == { stateAt 17#8 4#8 [] 0x4463#16 with run := .halted }) = true := by decide
theorem test_DI3 : stepsTo (stateAt 254#8 0#8 [] 0x5309#16)
    (fun t => t.acc == 9#8 && t.run == .halted && t.pc == 255#8) = true := by decide
theorem test_DI5 : stepsTo (stateAt 4#8 8#8 [] 0x6903#16)
    (fun t => t == { stateAt 4#8 8#8 [] 0x6903#16 with run := .faulted, fault := { pc := 4#8, acc := 8#8, opcode := 0x69#8, operand := 3#8 } })
    = true := by decide
theorem test_DI6 : stepsTo (stateAt 254#8 1#8 [] 0x5800#16)
    (fun t => t.run == .faulted && t.fault == { pc := 254#8, acc := 1#8, opcode := 0x58#8, operand := 0#8 }) = true := by
  decide
theorem test_DI7 : stepsTo State.reset (fun t => t.run == .faulted && t.fault == .clear) = true := by decide
theorem test_DI10 : tick { rst := true, inValid := true, inEof := false, inData := 9#8 } (stateAt 10#8 0#8 [(1, 255#8)] 0x6201#16)
    = .next { State.reset with input := { supplied := [], ended := false }, rom := [(10, 0x6201#16)] } := rfl

/-- R98: with `in_valid` 0 an R holds though its channel is exhausted; with `in_valid` 1 it takes the item at the pins. -/
theorem test_tick_input : (ticksTo { rst := false, inValid := false, inEof := false, inData := 9#8 } (stateIn 0x5200#16 [] true)
      (fun t => t == stateIn 0x5200#16 [] true) &&
    ticksTo { rst := false, inValid := true, inEof := false, inData := 9#8 } (stateIn 0x5200#16 [.byte 1#8, .byte 2#8] true)
      (fun t => t.acc == 9#8 && t.input.supplied == [.byte 2#8])) = true := by decide
/-- R110, D15: at an edge with `rst = 1` the T at `pc` does not complete and `out_valid` is 0. -/
theorem test_outPort_reset :
    outPort { rst := true, inValid := false, inEof := false, inData := 0#8 } (stateAt 0#8 0xFF#8 [] 0x5463#16) = none := by decide

/-! ### Loader and datapath -/

/-- The text `S65 T D` (W1): its tokens. -/
theorem test_scan_W1 : scan [0x53#8, 0x36#8, 0x35#8, 0x20#8, 0x54#8, 0x0A#8, 0x44#8] .between =
    .ok [{ letter := 0x53#8, operand := 65 }, { letter := 0x54#8, operand := 0 }, { letter := 0x44#8, operand := 0 }] := by
  decide
theorem test_scan_adjacent : scan [0x53#8, 0x54#8] .between = .error .missingSeparator := by decide
theorem test_scan_large : scan [0x53#8, 0x32#8, 0x35#8, 0x36#8] .between = .error (.operandTooLarge 256) := by decide
theorem test_scan_sign : scan [0x53#8, 0x2D#8] .between = .error (.badCharacter 0x2D#8) := by decide
/-- W1: the image 5341 5400 4400 4400, the last D appended. -/
theorem test_image_W1 : [0, 1, 2, 3, 4].map (slotWord 0#8 [{ letter := 0x53#8, operand := 65 },
    { letter := 0x54#8, operand := 0 }, { letter := 0x44#8, operand := 0 }]) =
    [0x5341#16, 0x5400#16, 0x4400#16, 0x4400#16, 0#16] := by decide
theorem test_image_legal_fill : romImage 0x44#8 [] = .error (.legalFill 0x44#8) := by decide
theorem test_datapath_storeInd : (match datapathStep (stateAt 0#8 7#8 [(0, 20#8)] 0x6F00#16) with
    | .next t => t.mem == [(0, 20#8), (20, 7#8)]
    | .fault _ => false
    | .refused _ => false) = true := by decide
theorem test_withFetchWord : (State.reset.withFetchWord 16 0x5341).fetch = 0x5341#16 := by decide

/-! ### Witnesses: the hypotheses of each statement, met together -/

theorem witness_OpcodeMapSelects : ¬ LegalOpcode 0x69#8 := by unfold LegalOpcode; decide
/-- The hypothesis `mem[k] = k` of LoadIndirectResult, StoreIndirectResult, BranchIndirectResult and AddIndirectResult. -/
theorem witness_IndirectResults_agreement : (stateAt 0#8 9#8 [(5, 5#8)] 0x6705#16).memRead 5#8 = 5#8 := by decide
theorem witness_ReadResult_item : (stateIn 0x5200#16 [.byte 0x41#8, .eof] false).input.supplied = .byte 0x41#8 :: [.eof] := rfl
theorem witness_ReadResult_eof : (stateIn 0x7232#16 [.eof] false).input.supplied = .eof :: [] := rfl
theorem witness_ReadResult_exhausted :
    (stateIn 0x5200#16 [] true).input.supplied = [] ∧ (stateIn 0x5200#16 [] true).input.ended = true := ⟨rfl, rfl⟩
theorem witness_ReadResult_wait :
    (stateIn 0x5200#16 [] false).input.supplied = [] ∧ (stateIn 0x5200#16 [] false).input.ended = false := ⟨rfl, rfl⟩
/-- Both sides of the terminator check at its boundary, for a fall-through and for a taken branch. -/
theorem witness_GoesTo_below : (stateAt 253#8 0#8 [] 0x4900#16).pc.toNat + 1 < 255 ∧ (254#8 : Byte).toNat < 255 := by decide
theorem witness_GoesTo_terminator : 255 ≤ (stateAt 254#8 0#8 [] 0x4900#16).pc.toNat + 1 ∧ 255 ≤ (255#8 : Byte).toNat := by
  decide
theorem witness_Branch_taken_terminator :
    (stateAt 1#8 0#8 [] 0x42FF#16).acc = 0#8 ∧ (stateAt 1#8 0#8 [(1, 255#8)] 0x6201#16).memRead 1#8 = 255#8 := by decide
theorem witness_Branch_not_taken : (stateAt 1#8 1#8 [] 0x42FF#16).acc ≠ 0#8 := by decide
theorem witness_OnlyBranchesTransferControl :
    (∀ k, Instr.setImm 9#8 ≠ .branch k) ∧ (∀ k, Instr.setImm 9#8 ≠ .branchInd k) ∧
    exec (.setImm 9#8) (stateAt 253#8 0#8 [] 0x5309#16) =
      .next { stateAt 253#8 0#8 [] 0x5309#16 with acc := 9#8, pc := 254#8 } ∧
    (stateAt 253#8 0#8 [] 0x5309#16).run = .running :=
  ⟨by simp, by simp, rfl, rfl⟩
/-- The input instruction that waits, the other side of the same statement. -/
theorem witness_OnlyBranchesTransferControl_wait :
    exec (.readAcc 0#8) (stateIn 0x5200#16 [] false) = .next (stateIn 0x5200#16 [] false) ∧
    (stateIn 0x5200#16 [] false).run = .running := ⟨rfl, rfl⟩
theorem witness_HaltLeavesPc_terminator : ∃ t, exec (.setImm 9#8) (stateAt 254#8 0#8 [] 0x5309#16) = .next t ∧
    (stateAt 254#8 0#8 [] 0x5309#16).run = .running ∧ t.run = .halted ∧ ∀ k, Instr.setImm 9#8 ≠ .halt k :=
  ⟨_, rfl, rfl, rfl, by simp⟩
theorem witness_HaltLeavesPc_halt : ∃ t, exec (.halt 99#8) (stateAt 17#8 4#8 [] 0x4463#16) = .next t ∧
    (stateAt 17#8 4#8 [] 0x4463#16).run = .running ∧ t.run = .halted ∧ ∃ k, Instr.halt 99#8 = .halt k :=
  ⟨_, rfl, rfl, rfl, 99#8, rfl⟩
theorem witness_RomNeverChanges : ∃ t, stepN 2 (stateAt 0#8 3#8 [] 0x4F0A#16) = .next t ∧
    ∃ u, exec (.store 10#8) (stateAt 0#8 3#8 [] 0x4F0A#16) = .next u :=
  ⟨_, rfl, _, rfl⟩
theorem witness_OnlyListedWrites : ∃ t, exec (.store 10#8) (stateAt 0#8 3#8 [] 0x4F0A#16) = .next t ∧
    writesAcc (.store 10#8) = false ∧ ramTarget (.store 10#8) (stateAt 0#8 3#8 [] 0x4F0A#16) ≠ some 11#8 ∧
    requestsInput (.store 10#8) = false ∧ emittedByte (.store 10#8) (stateAt 0#8 3#8 [] 0x4F0A#16) = none ∧
    writesPc (.store 10#8) = false ∧ writesRun (.store 10#8) = false ∧
    ¬ Waits (.store 10#8) (stateAt 0#8 3#8 [] 0x4F0A#16) :=
  ⟨_, rfl, rfl, by decide, rfl, rfl, rfl, rfl, by simp [Waits, requestsInput]⟩
theorem witness_OnlyListedWrites_halt : ∃ t, exec (.halt 99#8) (stateAt 17#8 4#8 [] 0x4463#16) = .next t ∧
    writesRun (.halt 99#8) = true := ⟨_, rfl, rfl⟩
theorem witness_OnlyListedWrites_wait : ∃ t, exec (.readAcc 0#8) (stateIn 0x5200#16 [] false) = .next t ∧
    Waits (.readAcc 0#8) (stateIn 0x5200#16 [] false) := ⟨_, rfl, rfl, rfl⟩
theorem witness_AccUnreadElsewhere : ∃ t, readsAcc (.load 10#8) = false ∧
    exec (.load 10#8) (stateAt 0#8 0#8 [(10, 0x2A#8)] 0x470A#16) = .next t ∧ writesAcc (.load 10#8) = true ∧
    ¬ (requestsInput (.load 10#8) = true ∧ (stateAt 0#8 0#8 [(10, 0x2A#8)] 0x470A#16).input.take = none) :=
  ⟨_, rfl, rfl, rfl, by simp [requestsInput]⟩
theorem witness_OnlyListedCellsRead :
    (∀ a ∈ ramSources (.storeInd 0#8) (stateAt 0#8 7#8 [(0, 20#8)] 0x6F00#16),
      Memory.read [(0, 20#8), (9, 1#8)] a = (stateAt 0#8 7#8 [(0, 20#8)] 0x6F00#16).memRead a) ∧
    (∃ t, exec (.storeInd 0#8) (stateAt 0#8 7#8 [(0, 20#8)] 0x6F00#16) = .next t) ∧
    ramTarget (.storeInd 0#8) (stateAt 0#8 7#8 [(0, 20#8)] 0x6F00#16) = some 20#8 :=
  ⟨by decide, ⟨_, rfl⟩, by decide⟩
theorem witness_StepRunsDecodedInstruction : Enabled (stateAt 254#8 0#8 [] 0x5309#16) ∧
    decode ((stateAt 254#8 0#8 [] 0x5309#16).romRead 254#8) = .ok (.setImm 9#8) := by unfold Enabled; decide
theorem witness_PlacedInstructionRuns : Enabled State.reset ∧ decodeTableWord 16 0x5341 = some (.setImm 65#8) := by
  unfold Enabled; decide
theorem witness_IllegalOpcodeFaults : Enabled (stateAt 254#8 1#8 [] 0x5800#16) ∧
    ¬ LegalOpcode (wordOp ((stateAt 254#8 1#8 [] 0x5800#16).romRead (stateAt 254#8 1#8 [] 0x5800#16).pc)) := by
  unfold Enabled LegalOpcode; decide
theorem witness_OnlyIllegalOpcodesFault : Enabled (stateAt 254#8 1#8 [] 0x5800#16) ∧
    ∃ t, step (stateAt 254#8 1#8 [] 0x5800#16) = .next t ∧ t.run = .faulted :=
  ⟨by unfold Enabled; decide, _, rfl, rfl⟩
theorem witness_TerminalStatesHold : ((stateAt 17#8 4#8 [] 0x4463#16).haltAt 17#8).run ≠ .running := by decide
/-- The one stop of the model. -/
theorem witness_StepStopsOnlyAtTerminator : step (stateAt 255#8 0#8 [] 0x4400#16) = .fault .terminatorSlot := rfl
theorem witness_OutputPortMatchesHistory : ∃ t, step (stateAt 0#8 0xFF#8 [] 0x5463#16) = .next t ∧
    stepOutput (stateAt 0#8 0xFF#8 [] 0x5463#16) = some 0xFF#8 := ⟨_, rfl, rfl⟩
theorem witness_OutputPortMatchesHistory_edges :
    (∃ t, tick { rst := false, inValid := false, inEof := false, inData := 0#8 } (stateAt 0#8 0xFF#8 [] 0x5463#16) = .next t) ∧
    ∃ t, tick { rst := true, inValid := false, inEof := false, inData := 0#8 } (stateAt 0#8 0xFF#8 [] 0x5463#16) = .next t :=
  ⟨⟨_, rfl⟩, _, rfl⟩
theorem witness_EmittedBytesRemain : ∃ t, stepN 2 (stateAt 0#8 0xFF#8 [] 0x5463#16) = .next t ∧
    t.run = .faulted ∧ t.output = [0xFF#8] := ⟨_, rfl, rfl, rfl⟩
theorem witness_InputTakenOnlyOnRequest : ∃ t, step (stateIn 0x5200#16 [.eof] false) = .next t ∧
    inReq (stateIn 0x5200#16 [.eof] false) = true ∧ ∃ u, step (stateAt 0#8 0#8 [] 0x5300#16) = .next u ∧
    inReq (stateAt 0#8 0#8 [] 0x5300#16) = false := ⟨_, rfl, rfl, _, rfl, rfl⟩
theorem witness_WaitHoldsUntilSupplied : waiting (stateIn 0x5200#16 [] false) = true := by decide
theorem witness_ArrivalTimeIrrelevant : (stateIn 0x5200#16 [.eof] false).input.ended = false ∧
    waiting (stateIn 0x5200#16 [.eof] false) = false ∧ ∃ t, step (stateIn 0x5200#16 [.eof] false) = .next t :=
  ⟨rfl, by decide, _, rfl⟩
theorem witness_EofIndistinguishableFromByte : ∃ t, stepN 1 (stateIn 0x5200#16 [.eof, .byte 1#8, .eof] true) = .next t ∧
    t.acc = 0xFF#8 := ⟨_, rfl, rfl⟩
theorem witness_TerminatorSlotUnobservable : ∃ t, stepN 2 (stateAt 254#8 0#8 [] 0x5309#16) = .next t ∧ t.acc = 9#8 :=
  ⟨_, rfl, rfl⟩
/-- A RUNNING state with RAM and ROM that meets the invariant, and a step from it. -/
theorem witness_StepKeepsInvariant : CoreInvariant (stateAt 254#8 9#8 [(4, 4#8)] 0x6F04#16) ∧
    ∃ t, step (stateAt 254#8 9#8 [(4, 4#8)] 0x6F04#16) = .next t ∧ t.run = .halted :=
  ⟨⟨by decide, by decide, by decide, by decide, by decide, by simp [stateAt, State.reset]⟩, _, rfl, rfl⟩
theorem witness_EveryRunGoesOn : Rom.wf [(0, 0x5341#16), (1, 0x5400#16), (255, 0x4400#16)] := by decide
theorem witness_InvariantHoldsAtReset : Rom.wf [(0, 0x5341#16), (254, 0xFFFF#16)] := by decide
theorem witness_StatusPortsShowState : ((stateAt 4#8 8#8 [(9, 1#8)] 0x6903#16).raiseIllegal 0x69#8 3#8).run ≠ .running := by
  decide
theorem witness_ResetPinWins : InputPins.rst { rst := true, inValid := true, inEof := true, inData := 1#8 } = true := rfl
/-- The hypotheses of each clause, with a channel that is exhausted and one that holds items. -/
theorem witness_InputHandshake :
    InputPins.rst { rst := false, inValid := true, inEof := false, inData := 0x41#8 } = false ∧
    inReq (stateIn 0x5200#16 [] true) = true ∧ (stateIn 0x5200#16 [.eof] true).current = some (.readAcc 0#8) ∧
    (stateIn 0x7232#16 [] false).current = some (.readMem 50#8) ∧ inReq (stateAt 0#8 0#8 [] 0x5300#16) = false := by decide
/-- The two ways a host serves INPUT: the next item, and EOF once it is exhausted. -/
theorem witness_PinsThatServeInputStep :
    inReq (stateIn 0x5200#16 [.byte 0x41#8] false) = true ∧ (stateIn 0x5200#16 [.byte 0x41#8] false).input.supplied =
      InputPins.item { rst := false, inValid := true, inEof := false, inData := 0x41#8 } :: [] ∧
    (stateIn 0x5200#16 [] true).input.supplied = [] ∧ (stateIn 0x5200#16 [] true).input.ended = true ∧
    InputPins.item { rst := false, inValid := true, inEof := true, inData := 0x41#8 } = .eof := by decide
theorem witness_LoaderBuildsImage :
    256 ≤ (List.replicate 256 ({ letter := 0x49#8, operand := 1 } : Token)).length ∧
    programWellFormed (List.replicate 255 ({ letter := 0x49#8, operand := 255 } : Token)) = true ∧
    LegalOpcode 0x44#8 ∧ ¬ LegalOpcode 0x00#8 :=
  ⟨by rw [List.length_replicate], by rw [programWellFormed, List.length_replicate, List.all_replicate]; rfl,
    by unfold LegalOpcode; decide, by unfold LegalOpcode; decide⟩
/-- The three places of a slot, at their boundaries: the last token, the appended D at slot 255, the first fill. -/
theorem witness_LoaderBuildsImage_slots :
    (List.replicate 255 ({ letter := 0x49#8, operand := 255 } : Token))[(254#8 : Byte).toNat]? =
      some { letter := 0x49#8, operand := 255 } ∧
    (255#8 : Byte).toNat = (List.replicate 255 ({ letter := 0x49#8, operand := 255 } : Token)).length ∧
    ([{ letter := 0x44#8, operand := 0 }] : List Token).length < (2#8 : Byte).toNat :=
  ⟨by rw [List.getElem?_replicate]; rfl, by rw [List.length_replicate]; rfl, by decide⟩
theorem witness_SourceTextReadsBack :
    List.all [{ letter := 0x53#8, operand := 0 }, { letter := 0x7A#8, operand := 255 }] Token.wellFormed = true := by decide

theorem witness_LoaderBuildsImage_illFormed :
    ([{ letter := 0x49#8, operand := 256 }] : List Token).length < 256 ∧
    List.all [({ letter := 0x49#8, operand := 256 } : Token)] Token.wellFormed = false := by decide
/-- An integer just above 255, one with a leading zero just at it, and an accepted text. -/
theorem witness_ScannerRefusesWhatD14Refuses :
    isLetter 0x53#8 = true ∧ List.all [0x32#8, 0x35#8, 0x36#8] isDigit = true ∧ 255 < digitsValue [0x32#8, 0x35#8, 0x36#8] ∧
    List.all [0x30#8, 0x32#8, 0x35#8, 0x35#8] isDigit = true ∧ digitsValue [0x30#8, 0x32#8, 0x35#8, 0x35#8] ≤ 255 ∧
    scan [0x53#8, 0x39#8, 0x20#8, 0x54#8] .between =
      .ok [{ letter := 0x53#8, operand := 9 }, { letter := 0x54#8, operand := 0 }] ∧
    scan [0x35#8] .between = .error (.badCharacter 0x35#8) := by decide

end Sys2Proof.Tests
end

/-! PROOFS. Memory (20_memory.md R31, R32, R35): the RAM as the last stores left it, and the ROM that nothing in the CORE
writes. -/

namespace Sys2Proof.Machine

/-! ### RAM -/

/-- Settles O23: the read-after-write laws of the RAM; the other fields are those of `State.memWrite`. -/
theorem memWriteSetsOneCell : Obligations.MemWriteSetsOneCell := by
  intro s a v
  have other_cells : SameRamBut a s (s.memWrite a v) :=
    fun b hb => State.memRead_memWrite_other s a b v hb
  exact ⟨State.memRead_memWrite_same s a v, other_cells, State.memWrite_acc s a v, State.memWrite_pc s a v,
    State.memWrite_run s a v, ⟨State.memWrite_input s a v, State.memWrite_output s a v⟩,
    State.memWrite_fault s a v, State.memWrite_rom s a v⟩

/-- Every RAM byte reads 0 right after boot (10_state.md R27). -/
@[simp] theorem State.memRead_boot (rom : Rom) (input : InputChannel) (a : Byte) :
    (State.boot rom input).memRead a = 0#8 := rfl

/-- The youngest store of a list decides at its own address, the older ones elsewhere; so a read after the stores gives
`lastStored`, if the cell held 0 before them. -/
theorem memRead_storeAll_of_zero {s : State} {a : Byte} (hzero : s.memRead a = 0#8) (stores : List (Byte × Byte)) :
    (storeAll s stores).memRead a = lastStored a stores := by
  induction stores with
  | nil => exact hzero
  | cons store older ih =>
    obtain ⟨b, v⟩ := store
    by_cases hb : b = a
    · subst hb
      simp [storeAll, lastStored]
    · have hread : ((storeAll s older).memWrite b v).memRead a = (storeAll s older).memRead a :=
        State.memRead_memWrite_other _ b a v (Ne.symm hb)
      simp only [storeAll, lastStored, if_neg hb, hread, ih]

/-- Settles O24, by induction on the stores from a RAM of zeros. -/
theorem memReadGivesLastStore : Obligations.MemReadGivesLastStore :=
  fun rom input stores a => memRead_storeAll_of_zero (State.memRead_boot rom input a) stores

/-! ### ROM

The ROM and the fault record have the same writers among the instructions, none, so the two are followed together. -/

/-- Completing an instruction keeps the fault record and the ROM that its own effects kept. -/
theorem sameRecords_of_complete {o : Option Byte} {s u t : State} (h : complete o u = .next t)
    (heffects : SameRecords s u) : SameRecords s t := by
  obtain ⟨hfault, hrom⟩ := heffects
  cases h
  exact ⟨(State.endCycle_fault o u).trans hfault, (State.endCycle_rom o u).trans hrom⟩

/-- An input instruction keeps both records if placing its byte does, whether it waits or completes. -/
theorem sameRecords_of_withInput {put : State → Byte → State} {s t : State} (h : withInput put s = .next t)
    (hput : ∀ u v, SameRecords u (put u v)) : SameRecords s t := by
  rcases withInput_cases put s with ⟨-, hwait⟩ | ⟨v, c, -, hdone⟩
  · cases hwait.symm.trans h
    exact ⟨rfl, rfl⟩
  · exact sameRecords_of_complete (hdone.symm.trans h) (hput { s with input := c } v)

/-- No instruction writes the fault record or the ROM: D and the two input instructions by their own rules, every other
instruction completes after effects on `acc`, RAM or the output alone. -/
theorem exec_sameRecords {i : Instr} {s t : State} (h : exec i s = .next t) : SameRecords s t := by
  cases i with
  | halt k => cases h; exact ⟨rfl, rfl⟩
  | readAcc k =>
    exact sameRecords_of_withInput h fun u v => ⟨State.setAcc_fault u v, State.setAcc_rom u v⟩
  | readMem k =>
    have hread : withInput (fun u v => u.memWrite (directAddr k) v) s = .next t := h
    exact sameRecords_of_withInput hread fun u v => ⟨State.memWrite_fault u k v, State.memWrite_rom u k v⟩
  | _ => exact sameRecords_of_complete h ⟨rfl, rfl⟩

/-- A step keeps the ROM; taking the illegal-instruction fault does so too. -/
theorem step_rom {s t : State} (h : step s = .next t) : t.rom = s.rom := by
  rcases step_cases s with ⟨-, hs⟩ | ⟨-, -, hs⟩ | ⟨-, i, -, hs⟩ | ⟨-, -, hs⟩ <;> rw [hs] at h
  · cases h; rfl
  · cases h
  · obtain ⟨-, hrom⟩ := exec_sameRecords h
    exact hrom
  · cases h
    exact State.raiseIllegal_rom s _ _

/-- What every step keeps holds after any number of steps. -/
theorem stepN_preserves {P : State → Prop} (hstep : ∀ s t, step s = .next t → P s → P t) {n : Nat} {s t : State}
    (h : stepN n s = .next t) (hs : P s) : P t := by
  induction n generalizing s with
  | zero => cases h; exact hs
  | succ n ih =>
    obtain ⟨u, hu, hrest⟩ := stepN_succ_cases h
    exact ih hrest (hstep s u hu hs)

/-- Settles O25: `exec` keeps the ROM, every step does, so every run does. -/
theorem romNeverChanges : Obligations.RomNeverChanges := by
  constructor
  · intro i s t h
    obtain ⟨-, hrom⟩ := exec_sameRecords h
    exact hrom
  · intro n s t h
    exact stepN_preserves (P := fun u => u.rom = s.rom) (fun _ _ hstep hrom => (step_rom hstep).trans hrom) h rfl

end Sys2Proof.Machine

/-! PROOFS. The opcode map (30_encoding.md R53, R55, R56): `decodeOp` and the two fields of an instruction are inverse to
each other, so exactly the opcode bytes of instructions decode. -/

namespace Sys2Proof.Machine

/-- Every instruction is selected by its own opcode byte, with its own operand. -/
@[simp] theorem decodeOp_opcode_operand (i : Instr) : decodeOp i.opcode i.operand = some i := by
  cases i <;> rfl

/-- Decoding drops nothing: the two bytes are the fields of the instruction they decode to. -/
theorem fields_of_decodeOp {op k : Byte} {i : Instr} (h : decodeOp op k = some i) : i.opcode = op ∧ i.operand = k := by
  unfold decodeOp at h
  split at h <;> cases h
  all_goals
    rename_i hop
    exact ⟨(BitVec.eq_of_toNat_eq hop).symm, rfl⟩

theorem decodeOp_eq_some_iff {op k : Byte} {i : Instr} :
    decodeOp op k = some i ↔ i.opcode = op ∧ i.operand = k := by
  refine ⟨fields_of_decodeOp, ?_⟩
  rintro ⟨rfl, rfl⟩
  exact decodeOp_opcode_operand i

/-- The model's `Instr.opcode` takes its values among the bytes the specification lists. -/
theorem legalOpcode_opcode (i : Instr) : LegalOpcode i.opcode := by
  cases i <;> simp [LegalOpcode, Instr.opcode]

theorem decodeOp_eq_none_of_not_legalOpcode {op : Byte} (hop : ¬ LegalOpcode op) (k : Byte) : decodeOp op k = none := by
  cases h : decodeOp op k with
  | none => rfl
  | some i =>
    obtain ⟨rfl, -⟩ := decodeOp_eq_some_iff.1 h
    exact absurd (legalOpcode_opcode i) hop

/-- Settles O2: the fifteen values decode as the opcodes of their instructions; any other value that decoded would be the
opcode of an instruction, hence legal. -/
theorem opcodeMapSelects : Obligations.OpcodeMapSelects := by
  intro k
  exact ⟨decodeOp_opcode_operand (.add k), decodeOp_opcode_operand (.branch k), decodeOp_opcode_operand (.halt k),
    decodeOp_opcode_operand (.load k), decodeOp_opcode_operand (.addImm k), decodeOp_opcode_operand (.store k),
    decodeOp_opcode_operand (.readAcc k), decodeOp_opcode_operand (.setImm k), decodeOp_opcode_operand (.writeAcc k),
    decodeOp_opcode_operand (.addInd k), decodeOp_opcode_operand (.branchInd k), decodeOp_opcode_operand (.loadInd k),
    decodeOp_opcode_operand (.storeInd k), decodeOp_opcode_operand (.readMem k), decodeOp_opcode_operand (.writeMem k),
    fun _ hop => decodeOp_eq_none_of_not_legalOpcode hop k⟩

end Sys2Proof.Machine

/-! PROOFS. Loads and stores (41_load_store.md R73 to R76): an instruction whose own effect is one write of `acc`, or of one
RAM cell, completes with that effect and the frame around it; each of G, g, O, o is one of the two. -/

namespace Sys2Proof.Machine

/-! ### Instructions that complete -/

/-- The next-pc step at the end of an instruction that has left `pc` and `run` alone (40_dispatch.md R66, R67). -/
theorem fallsThrough_endCycle {s u : State} (hpc : u.pc = s.pc) (hrun : u.run = s.run) :
    FallsThrough s (u.endCycle none) := by
  have hgoes : GoesTo (u.pc.toNat + 1) u (u.endCycle none) := endCycle_goesTo none u
  unfold FallsThrough
  unfold GoesTo at hgoes ⊢
  rwa [hpc, hrun] at hgoes

/-- The next-pc step touches neither channel. -/
theorem sameChannels_endCycle {o : Option Byte} {s u : State} (h : SameChannels s u) :
    SameChannels s (u.endCycle o) := by
  obtain ⟨hinput, houtput⟩ := h
  exact ⟨(State.endCycle_input o u).trans hinput, (State.endCycle_output o u).trans houtput⟩

/-- All that an instruction does whose one effect is `acc <- v`. -/
theorem complete_setAcc_result (s : State) (v : Byte) :
    ∃ t, complete none (s.setAcc v) = .next t ∧ t.acc = v ∧
      SameRam s t ∧ SameChannels s t ∧ SameRecords s t ∧ FallsThrough s t := by
  have acc_set : ((s.setAcc v).endCycle none).acc = v :=
    (State.endCycle_acc none _).trans (State.setAcc_acc s v)
  have ram_kept : SameRam s ((s.setAcc v).endCycle none) := fun a =>
    (State.memRead_endCycle none _ a).trans (State.memRead_setAcc s v a)
  have records_kept : SameRecords s ((s.setAcc v).endCycle none) :=
    sameRecords_of_complete (complete_eq none _) ⟨State.setAcc_fault s v, State.setAcc_rom s v⟩
  exact ⟨_, complete_eq none _, acc_set, ram_kept,
    sameChannels_endCycle ⟨State.setAcc_input s v, State.setAcc_output s v⟩, records_kept,
    fallsThrough_endCycle (State.setAcc_pc s v) (State.setAcc_run s v)⟩

/-- All that an instruction does whose one effect is `MemWrite(a, 1, v)`. -/
theorem complete_memWrite_result (s : State) (a v : Byte) :
    ∃ t, complete none (s.memWrite a v) = .next t ∧ t.memRead a = v ∧ SameRamBut a s t ∧
      t.acc = s.acc ∧ SameChannels s t ∧ SameRecords s t ∧ FallsThrough s t := by
  have cell_set : ((s.memWrite a v).endCycle none).memRead a = v :=
    (State.memRead_endCycle none _ a).trans (State.memRead_memWrite_same s a v)
  have other_cells : SameRamBut a s ((s.memWrite a v).endCycle none) := fun b hb =>
    (State.memRead_endCycle none _ b).trans (State.memRead_memWrite_other s a b v hb)
  have acc_kept : ((s.memWrite a v).endCycle none).acc = s.acc :=
    (State.endCycle_acc none _).trans (State.memWrite_acc s a v)
  have records_kept : SameRecords s ((s.memWrite a v).endCycle none) :=
    sameRecords_of_complete (complete_eq none _) ⟨State.memWrite_fault s a v, State.memWrite_rom s a v⟩
  exact ⟨_, complete_eq none _, cell_set, other_cells, acc_kept,
    sameChannels_endCycle ⟨State.memWrite_input s a v, State.memWrite_output s a v⟩, records_kept,
    fallsThrough_endCycle (State.memWrite_pc s a v) (State.memWrite_run s a v)⟩

/-! ### The four instructions -/

theorem exec_load (k : Byte) (s : State) : exec (.load k) s = complete none (s.setAcc (s.memRead k)) := rfl

theorem exec_loadInd (k : Byte) (s : State) :
    exec (.loadInd k) s = complete none (s.setAcc (s.memRead (s.memRead k))) := rfl

theorem exec_store (k : Byte) (s : State) : exec (.store k) s = complete none (s.memWrite k s.acc) := rfl

theorem exec_storeInd (k : Byte) (s : State) :
    exec (.storeInd k) s = complete none (s.memWrite (s.memRead k) s.acc) := rfl

/-- A pointer to itself makes the two addresses one, so g is G. -/
theorem exec_loadInd_of_self_pointer {k : Byte} {s : State} (hself : s.memRead k = k) :
    exec (.loadInd k) s = exec (.load k) s := by
  have same_source : s.memRead (s.memRead k) = s.memRead k := congrArg s.memRead hself
  rw [exec_loadInd, exec_load, same_source]

/-- Likewise o is O. -/
theorem exec_storeInd_of_self_pointer {k : Byte} {s : State} (hself : s.memRead k = k) :
    exec (.storeInd k) s = exec (.store k) s := by
  rw [exec_storeInd, exec_store, hself]

/-- Settles O5: G is `acc <- mem[k]` and nothing else. -/
theorem loadDirectResult : Obligations.LoadDirectResult := by
  intro k s
  rw [exec_load]
  exact ⟨rfl, complete_setAcc_result s (s.memRead k)⟩

/-- Settles O6: g is `acc <- mem[mem[k]]` and nothing else. -/
theorem loadIndirectResult : Obligations.LoadIndirectResult := by
  intro k s
  refine ⟨rfl, exec_loadInd_of_self_pointer, ?_⟩
  rw [exec_loadInd]
  exact complete_setAcc_result s (s.memRead (s.memRead k))

/-- Settles O7: O is one store at `k`. -/
theorem storeDirectResult : Obligations.StoreDirectResult := by
  intro k s
  obtain ⟨t, hexec, cell_set, other_cells, frame⟩ := complete_memWrite_result s k s.acc
  exact ⟨rfl, t, (exec_store k s).trans hexec, cell_set, other_cells, directAddr_eq k, frame⟩

/-- Settles O8: o is one store at the pointer that the state before it holds. -/
theorem storeIndirectResult : Obligations.StoreIndirectResult := by
  intro k s
  obtain ⟨t, hexec, cell_set, other_cells, frame⟩ := complete_memWrite_result s (s.memRead k) s.acc
  exact ⟨rfl, exec_storeInd_of_self_pointer, t, (exec_storeInd k s).trans hexec, cell_set, other_cells,
    pointerAddr_eq s k, frame⟩

end Sys2Proof.Machine

/-! PROOFS. Output (42_io.md R79, R80): an instruction whose own effect is one byte emitted completes with that byte at the
end of the output and the frame around it; T and t differ in the byte only. -/

namespace Sys2Proof.Machine

/-- All that an instruction does whose one effect is `OutWrite(v)`. -/
theorem complete_outWrite_result (s : State) (v : Byte) :
    ∃ t, complete none (s.outWrite v) = .next t ∧ t.output = s.output ++ [v] ∧
      t.acc = s.acc ∧ SameRam s t ∧ t.input = s.input ∧ SameRecords s t ∧ FallsThrough s t := by
  have byte_appended : ((s.outWrite v).endCycle none).output = s.output ++ [v] :=
    (State.endCycle_output none _).trans (State.outWrite_output s v)
  have acc_kept : ((s.outWrite v).endCycle none).acc = s.acc :=
    (State.endCycle_acc none _).trans (State.outWrite_acc s v)
  have ram_kept : SameRam s ((s.outWrite v).endCycle none) := fun a =>
    (State.memRead_endCycle none _ a).trans (State.memRead_outWrite s v a)
  have input_kept : ((s.outWrite v).endCycle none).input = s.input :=
    (State.endCycle_input none _).trans (State.outWrite_input s v)
  have records_kept : SameRecords s ((s.outWrite v).endCycle none) :=
    sameRecords_of_complete (complete_eq none _) ⟨State.outWrite_fault s v, State.outWrite_rom s v⟩
  exact ⟨_, complete_eq none _, byte_appended, acc_kept, ram_kept, input_kept, records_kept,
    fallsThrough_endCycle (State.outWrite_pc s v) (State.outWrite_run s v)⟩

theorem exec_writeAcc (k : Byte) (s : State) : exec (.writeAcc k) s = complete none (s.outWrite s.acc) := rfl

theorem exec_writeMem (k : Byte) (s : State) : exec (.writeMem k) s = complete none (s.outWrite (s.memRead k)) := rfl

/-- Settles O11: T emits `acc`, whatever its operand, and does nothing else. -/
theorem writeAccResult : Obligations.WriteAccResult := by
  intro k s
  rw [exec_writeAcc]
  exact ⟨rfl, complete_outWrite_result s s.acc⟩

/-- Settles O12: t emits `mem[k]`, with one RAM read and no pointer-chase, and does nothing else. -/
theorem writeMemResult : Obligations.WriteMemResult := by
  intro k s
  rw [exec_writeMem]
  exact ⟨rfl, complete_outWrite_result s (s.memRead k)⟩

end Sys2Proof.Machine

/-! PROOFS. Arithmetic and immediates (44_arith.md R85 to R88): each of I, S, A, a is one write of `acc`; I, A and a write the
sum that the adder gives and differ in the second summand only. -/

namespace Sys2Proof.Machine

/-- All that an instruction does whose one effect is to add `v` to `acc`. -/
theorem complete_setAcc_add8_result (s : State) (v : Byte) :
    ∃ t, complete none (s.setAcc (add8 s.acc v)) = .next t ∧ t.acc.toNat = (s.acc.toNat + v.toNat) % 256 ∧
      SameRam s t ∧ SameChannels s t ∧ SameRecords s t ∧ FallsThrough s t := by
  obtain ⟨t, hdone, acc_set, frame⟩ := complete_setAcc_result s (add8 s.acc v)
  have acc_sum : t.acc.toNat = (s.acc.toNat + v.toNat) % 256 :=
    (congrArg BitVec.toNat acc_set).trans (add8_toNat s.acc v)
  exact ⟨t, hdone, acc_sum, frame⟩

theorem exec_addImm (k : Byte) (s : State) : exec (.addImm k) s = complete none (s.setAcc (add8 s.acc k)) := rfl

theorem exec_setImm (k : Byte) (s : State) : exec (.setImm k) s = complete none (s.setAcc k) := rfl

theorem exec_add (k : Byte) (s : State) :
    exec (.add k) s = complete none (s.setAcc (add8 s.acc (s.memRead k))) := rfl

theorem exec_addInd (k : Byte) (s : State) :
    exec (.addInd k) s = complete none (s.setAcc (add8 s.acc (s.memRead (s.memRead k)))) := rfl

/-- A pointer to itself makes the two summands one, so a is A. -/
theorem exec_addInd_of_self_pointer {k : Byte} {s : State} (hself : s.memRead k = k) :
    exec (.addInd k) s = exec (.add k) s := by
  have same_summand : s.memRead (s.memRead k) = s.memRead k := congrArg s.memRead hself
  rw [exec_addInd, exec_add, same_summand]

/-- I has no small-letter form: the byte `i` is not in the opcode map. -/
theorem not_legalOpcode_small_i : ¬ LegalOpcode 0x69#8 := by
  unfold LegalOpcode
  decide

/-- Nor has S: the byte `s` is not in the opcode map. -/
theorem not_legalOpcode_small_s : ¬ LegalOpcode 0x73#8 := by
  unfold LegalOpcode
  decide

/-- Settles O19: I adds its operand and does nothing else. -/
theorem addImmediateResult : Obligations.AddImmediateResult := by
  intro k s
  rw [exec_addImm]
  exact ⟨rfl, decodeOp_eq_none_of_not_legalOpcode not_legalOpcode_small_i k, complete_setAcc_add8_result s k⟩

/-- Settles O20: S is `acc <- k` and nothing else. -/
theorem setImmediateResult : Obligations.SetImmediateResult := by
  intro k s
  rw [exec_setImm]
  exact ⟨rfl, decodeOp_eq_none_of_not_legalOpcode not_legalOpcode_small_s k, complete_setAcc_result s k⟩

/-- Settles O21: A adds `mem[k]` and does nothing else. -/
theorem addDirectResult : Obligations.AddDirectResult := by
  intro k s
  rw [exec_add]
  exact ⟨rfl, complete_setAcc_add8_result s (s.memRead k)⟩

/-- Settles O22: a adds `mem[mem[k]]`, after one pointer-chase, and does nothing else. -/
theorem addIndirectResult : Obligations.AddIndirectResult := by
  intro k s
  refine ⟨rfl, exec_addInd_of_self_pointer, ?_⟩
  rw [exec_addInd]
  exact complete_setAcc_add8_result s (s.memRead (s.memRead k))

end Sys2Proof.Machine

/-! PROOFS. Words and bytes of instructions (30_encoding.md R50 to R57): decoding a word is inverse to encoding, for words,
for lists of bytes and for the opcode table's numbering. -/

namespace Sys2Proof.Machine

/-- The two fields of a word hold every bit of it (30_encoding.md R52). -/
theorem packWord_fields (w : Word) : packWord (wordOp w) (wordOperand w) = w := by
  ext i hi
  have happend := BitVec.getLsbD_append (x := wordOp w) (y := wordOperand w) (i := i)
  rw [← BitVec.getLsbD_eq_getElem hi, ← BitVec.getLsbD_eq_getElem hi, packWord, happend]
  by_cases hlow : i < 8
  · simp [wordOperand, hlow]
  · have hup : 8 + (i - 8) = i := by omega
    have hhigh : i - 8 < 8 := by omega
    simp [wordOp, hlow, hup, hhigh]

/-- Every operand value is legal with every opcode (30_encoding.md R57). -/
theorem instr_wellFormed (i : Instr) : i.wellFormed = true := by
  cases i <;> rfl

theorem decode_eq_ok_iff_decodeOp {w : Word} {i : Instr} :
    decode w = .ok i ↔ decodeOp (wordOp w) (wordOperand w) = some i := by
  unfold decode
  cases decodeOp (wordOp w) (wordOperand w) <;> simp

theorem decode_eq_ok_iff_encode {w : Word} {i : Instr} : decode w = .ok i ↔ encode i = w := by
  rw [decode_eq_ok_iff_decodeOp, decodeOp_eq_some_iff]
  constructor
  · rintro ⟨hop, hk⟩
    rw [encode, hop, hk, packWord_fields]
  · rintro rfl
    exact ⟨(Laws.wordOp_packWord _ _).symm, (Laws.wordOperand_packWord _ _).symm⟩

@[simp] theorem decode_encode (i : Instr) : decode (encode i) = .ok i :=
  decode_eq_ok_iff_encode.2 rfl

/-- Settles O3: the decoder's opcode map inverts the two fields of an instruction, and the two fields are the word. -/
theorem decodeIsInverseOfEncode : Obligations.DecodeIsInverseOfEncode := by
  intro w i
  rw [decode_eq_ok_iff_encode]
  exact ⟨fun h => ⟨instr_wellFormed i, h⟩, fun ⟨_, h⟩ => h⟩

/-- All 16 bits of a number below `2 ^ 16` count. -/
theorem tableWord_toNat (w : Word) : tableWord 16 w.toNat = w := by
  rw [tableWord, Nat.mod_eq_of_lt w.isLt, BitVec.ofNat_toNat, BitVec.setWidth_eq]

theorem decodeTableWord_eq_some_iff {nbits w : Nat} {i : Instr} :
    decodeTableWord nbits w = some i ↔ decode (tableWord nbits w) = .ok i := by
  unfold decodeTableWord
  cases decode (tableWord nbits w) <;> simp

/-- Settles O4: both forms decode the word of the instruction. -/
theorem bytesDecodeBack : Obligations.BytesDecodeBack := by
  intro i rest
  have hword : decode (packWord i.opcode i.operand) = .ok i := decode_encode i
  constructor
  · simp [encodeBytes, decodeBytes, hword]
  · rw [decodeTableWord_eq_some_iff, tableWord_toNat, decode_encode]

theorem exists_decodeOp_of_legalOpcode {op : Byte} (hop : LegalOpcode op) (k : Byte) :
    ∃ i, decodeOp op k = some i := by
  simp only [LegalOpcode, List.mem_cons, List.not_mem_nil, or_false] at hop
  rcases hop with rfl | rfl | rfl | rfl | rfl | rfl | rfl | rfl | rfl | rfl | rfl | rfl | rfl | rfl | rfl <;>
    exact ⟨_, rfl⟩

/-- A word decodes to no instruction exactly if its opcode is not in the map (30_encoding.md R56). -/
theorem decodeOp_eq_none_iff {op k : Byte} : decodeOp op k = none ↔ ¬ LegalOpcode op := by
  refine ⟨fun hnone hop => ?_, fun hop => decodeOp_eq_none_of_not_legalOpcode hop k⟩
  obtain ⟨i, hi⟩ := exists_decodeOp_of_legalOpcode hop k
  simp [hi] at hnone

theorem exists_decode_eq_error_iff {w : Word} : (∃ e, decode w = .error e) ↔ ¬ LegalOpcode (wordOp w) := by
  rw [← decodeOp_eq_none_iff (k := wordOperand w), decode]
  cases decodeOp (wordOp w) (wordOperand w) <;> simp

theorem legalOpcode_of_decode {w : Word} {i : Instr} (h : decode w = .ok i) : LegalOpcode (wordOp w) := by
  rw [decode_eq_ok_iff_decodeOp, decodeOp_eq_some_iff] at h
  obtain ⟨hop, -⟩ := h
  exact hop ▸ legalOpcode_opcode i

/-- Settles O1: each word encodes its instruction; the last one's opcode is not in the map. -/
theorem specWordsDecode : Obligations.SpecWordsDecode :=
  ⟨decode_encode (.load 10#8), decode_encode (.loadInd 5#8), decode_encode (.store 255#8), decode_encode (.storeInd 0#8),
    decode_encode (.readAcc 7#8), decode_encode (.readMem 50#8), decode_encode (.branch 255#8),
    decode_encode (.branchInd 1#8), decode_encode (.addImm 100#8), decode_encode (.writeAcc 99#8),
    decode_encode (.writeMem 50#8), decode_encode (.setImm 65#8), decode_encode (.add 3#8), decode_encode (.addInd 3#8),
    decode_encode (.halt 99#8), rfl⟩

end Sys2Proof.Machine

/-! PROOFS. What an instruction does, as data: each of the fifteen has at most one write of its own (the columns `acc`, `mem`
and `output` of the access matrix, 10_state.md R28) and a branch target or none. `exec_cases` says once how `exec` is made of
the two; what an instruction reads and writes are then facts about `ownWrite` and `branchTarget`. -/

namespace Sys2Proof.Machine

/-- The one write of an instruction, beyond `pc` and `run`. -/
inductive OwnWrite where
  | nothing
  | acc (v : Byte)
  | ram (a v : Byte)
  | out (v : Byte)

def State.apply (s : State) : OwnWrite → State
  | .nothing => s
  | .acc v => s.setAcc v
  | .ram a v => s.memWrite a v
  | .out v => s.outWrite v

/-- The write of an instruction; `v` is the byte it took from the input, if it requests one. -/
def ownWrite (i : Instr) (s : State) (v : Byte) : OwnWrite :=
  match i with
  | .load k => .acc (s.memRead k)
  | .loadInd k => .acc (s.memRead (s.memRead k))
  | .store k => .ram k s.acc
  | .storeInd k => .ram (s.memRead k) s.acc
  | .readAcc _ => .acc v
  | .readMem k => .ram k v
  | .branch _ => .nothing
  | .branchInd _ => .nothing
  | .addImm k => .acc (add8 s.acc k)
  | .writeAcc _ => .out s.acc
  | .writeMem k => .out (s.memRead k)
  | .setImm k => .acc k
  | .add k => .acc (add8 s.acc (s.memRead k))
  | .addInd k => .acc (add8 s.acc (s.memRead (s.memRead k)))
  | .halt _ => .nothing

/-- The target of a taken branch: B and b only (43_branch.md R81, R82). -/
def branchTarget (i : Instr) (s : State) : Option Byte :=
  match i with
  | .branch k => takenIfZero s k
  | .branchInd k => takenIfZero s (s.memRead k)
  | _ => none

/-- What an instruction finds in the input channel, the byte `v` and the channel `c` after it: nothing is taken by an
instruction that requests no input. -/
def Delivered (i : Instr) (s : State) (v : Byte) (c : InputChannel) : Prop :=
  (requestsInput i = true ∧ s.input.take = some (v, c)) ∨ (requestsInput i = false ∧ c = s.input)

/-- The state after an instruction that completed with the byte `v` and left the channel `c`. -/
def completed (i : Instr) (s : State) (v : Byte) (c : InputChannel) : State :=
  (State.apply { s with input := c } (ownWrite i s v)).endCycle (branchTarget i s)

/-! ### How `exec` is made of them -/

theorem exec_of_requestsInput_false {i : Instr} (hreq : requestsInput i = false) (hrun : writesRun i = false) (s : State)
    (v : Byte) : exec i s = .next (completed i s v s.input) := by
  cases i with
  | readAcc k | readMem k => cases hreq
  | halt k => cases hrun
  | _ => rfl

theorem withInput_of_take {s : State} {v : Byte} {c : InputChannel} (htake : s.input.take = some (v, c))
    (put : State → Byte → State) : withInput put s = .next ((put { s with input := c } v).endCycle none) := by
  simp [withInput, htake]

theorem withInput_of_wait {s : State} (htake : s.input.take = none) (put : State → Byte → State) :
    withInput put s = .next s := by
  simp [withInput, htake]

theorem exec_of_take_eq_some {i : Instr} {s : State} {v : Byte} {c : InputChannel} (hreq : requestsInput i = true)
    (htake : s.input.take = some (v, c)) : exec i s = .next (completed i s v c) := by
  cases i with
  | readAcc k => exact withInput_of_take htake State.setAcc
  | readMem k => exact withInput_of_take htake fun u b => u.memWrite (directAddr k) b
  | _ => cases hreq

theorem exec_of_waits {i : Instr} {s : State} (hwait : Waits i s) : exec i s = .next s := by
  obtain ⟨hreq, htake⟩ := hwait
  cases i with
  | readAcc k => exact withInput_of_wait htake State.setAcc
  | readMem k => exact withInput_of_wait htake fun u b => u.memWrite (directAddr k) b
  | _ => cases hreq

theorem exec_of_writesRun {i : Instr} (hrun : writesRun i = true) (s : State) : exec i s = .next (s.haltAt s.pc) := by
  cases i with
  | halt k => rfl
  | _ => cases hrun

theorem requestsInput_of_writesRun {i : Instr} (hrun : writesRun i = true) : requestsInput i = false := by
  cases i with
  | halt k => rfl
  | _ => cases hrun

theorem writesRun_of_requestsInput {i : Instr} (hreq : requestsInput i = true) : writesRun i = false := by
  cases i with
  | readAcc k | readMem k => rfl
  | _ => cases hreq

theorem exec_of_delivered {i : Instr} {s : State} {v : Byte} {c : InputChannel} (hrun : writesRun i = false)
    (hdeliv : Delivered i s v c) : exec i s = .next (completed i s v c) := by
  rcases hdeliv with ⟨hreq, htake⟩ | ⟨hreq, rfl⟩
  · exact exec_of_take_eq_some hreq htake
  · exact exec_of_requestsInput_false hreq hrun s v

/-- Everything an instruction can do: D halts, an R or r with no item available waits, every other one completes. -/
theorem exec_cases (i : Instr) (s : State) :
    (writesRun i = true ∧ exec i s = .next (s.haltAt s.pc)) ∨
    (Waits i s ∧ exec i s = .next s) ∨
    (writesRun i = false ∧ ∃ v c, Delivered i s v c ∧ exec i s = .next (completed i s v c)) := by
  cases hrun : writesRun i with
  | true => exact .inl ⟨rfl, exec_of_writesRun hrun s⟩
  | false =>
    refine .inr ?_
    cases hreq : requestsInput i with
    | false => exact .inr ⟨rfl, 0#8, s.input, .inr ⟨hreq, rfl⟩, exec_of_requestsInput_false hreq hrun s 0#8⟩
    | true =>
      cases htake : s.input.take with
      | none => exact .inl ⟨⟨hreq, htake⟩, exec_of_waits ⟨hreq, htake⟩⟩
      | some p => exact .inr ⟨rfl, p.1, p.2, .inl ⟨hreq, htake⟩, exec_of_take_eq_some hreq htake⟩

/-- The same for an instruction known to have answered `t`. -/
theorem exec_next_cases {i : Instr} {s t : State} (h : exec i s = .next t) :
    (writesRun i = true ∧ t = s.haltAt s.pc) ∨ (Waits i s ∧ t = s) ∨
    (writesRun i = false ∧ ∃ v c, Delivered i s v c ∧ t = completed i s v c) := by
  rcases exec_cases i s with ⟨hrun, hs⟩ | ⟨hwait, hs⟩ | ⟨hrun, v, c, hdeliv, hs⟩ <;> cases hs.symm.trans h
  · exact .inl ⟨hrun, rfl⟩
  · exact .inr (.inl ⟨hwait, rfl⟩)
  · exact .inr (.inr ⟨hrun, v, c, hdeliv, rfl⟩)

theorem Delivered.not_waits {i : Instr} {s : State} {v : Byte} {c : InputChannel} (h : Delivered i s v c) :
    ¬ Waits i s := by
  rintro ⟨hreq, htake⟩
  rcases h with ⟨-, hsome⟩ | ⟨hfalse, -⟩
  · simp [htake] at hsome
  · simp [hreq] at hfalse

/-- No instruction stops or is refused (60_exceptions.md R89). -/
theorem exists_exec_eq_next (i : Instr) (s : State) : ∃ t, exec i s = .next t := by
  rcases exec_cases i s with ⟨-, hs⟩ | ⟨-, hs⟩ | ⟨-, v, c, -, hs⟩ <;> exact ⟨_, hs⟩

/-! ### What the one write leaves unchanged -/

section Apply
variable (s : State) (w : OwnWrite)

@[simp] theorem State.apply_pc : (s.apply w).pc = s.pc := by cases w <;> rfl
@[simp] theorem State.apply_run : (s.apply w).run = s.run := by cases w <;> rfl
@[simp] theorem State.apply_input : (s.apply w).input = s.input := by cases w <;> rfl

theorem State.apply_ram_wf (h : s.mem.wf) : (s.apply w).mem.wf := by
  cases w with
  | ram a v => exact Memory.write_wf s.mem a v h
  | _ => exact h

end Apply

/-! ### The access matrix, as facts about `ownWrite` and `branchTarget` -/

theorem apply_ownWrite_acc {i : Instr} (h : writesAcc i = false) (s u : State) (v : Byte) :
    (u.apply (ownWrite i s v)).acc = u.acc := by
  cases i with
  | load k | loadInd k | readAcc k | addImm k | setImm k | add k | addInd k => cases h
  | _ => rfl

theorem apply_ownWrite_memRead {i : Instr} {s : State} {a : Byte} (h : ramTarget i s ≠ some a) (u : State) (v : Byte) :
    (u.apply (ownWrite i s v)).memRead a = u.memRead a := by
  cases i with
  | store k | storeInd k | readMem k =>
    exact State.memRead_memWrite_other _ _ _ _ fun ha => h (congrArg some ha.symm)
  | _ => rfl

theorem apply_ownWrite_output (i : Instr) (s u : State) (v : Byte) :
    (u.apply (ownWrite i s v)).output = u.output ++ (emittedByte i s).toList := by
  cases i with
  | writeAcc k | writeMem k => rfl
  | _ => exact (List.append_nil _).symm

theorem branchTarget_eq_none {i : Instr} (h : writesPc i = false) (s : State) : branchTarget i s = none := by
  cases i with
  | branch k | branchInd k => cases h
  | _ => rfl

theorem emittedByte_of_requestsInput {i : Instr} (h : requestsInput i = true) (s : State) : emittedByte i s = none := by
  cases i with
  | readAcc k | readMem k => rfl
  | _ => cases h

theorem emittedByte_of_writesRun {i : Instr} (h : writesRun i = true) (s : State) : emittedByte i s = none := by
  cases i with
  | halt k => rfl
  | _ => cases h

theorem writesRun_eq_true_iff {i : Instr} : writesRun i = true ↔ ∃ k, i = .halt k := by
  cases i <;> simp [writesRun]

theorem writesPc_eq_false_iff {i : Instr} :
    writesPc i = false ↔ (∀ k, i ≠ .branch k) ∧ ∀ k, i ≠ .branchInd k := by
  cases i <;> simp [writesPc]

/-! ### The fields of a state after an instruction that completed -/

section Completed
variable (i : Instr) (s : State) (v : Byte) (c : InputChannel)

@[simp] theorem completed_input : (completed i s v c).input = c := by simp [completed]
@[simp] theorem completed_output : (completed i s v c).output = s.output ++ (emittedByte i s).toList := by
  simp [completed, apply_ownWrite_output]

theorem completed_ram_wf (h : s.mem.wf) : (completed i s v c).mem.wf := by
  simpa [completed] using State.apply_ram_wf { s with input := c } (ownWrite i s v) h

/-- Where the CORE goes: the slot the branch multiplexer chooses, or HALTED at the terminator (40_dispatch.md R66, R67). -/
theorem completed_cases :
    (nextSlot s.pc (branchTarget i s) < 255 ∧ (completed i s v c).run = s.run ∧
      (completed i s v c).pc.toNat = nextSlot s.pc (branchTarget i s)) ∨
    (255 ≤ nextSlot s.pc (branchTarget i s) ∧ (completed i s v c).run = .halted ∧ (completed i s v c).pc = 255#8) := by
  have hpc : (State.apply { s with input := c } (ownWrite i s v)).pc = s.pc := State.apply_pc _ _
  rcases endCycle_cases (branchTarget i s) (State.apply { s with input := c } (ownWrite i s v)) with
    ⟨hlt, h⟩ | ⟨hge, h⟩ <;> rw [hpc] at *
  · have hmod : nextSlot s.pc (branchTarget i s) % 256 = nextSlot s.pc (branchTarget i s) := by omega
    exact .inl ⟨hlt, by simp [completed, h], by simp [completed, h, hmod]⟩
  · exact .inr ⟨hge, by simp [completed, h], by simp [completed, h]⟩

theorem completed_goesTo : GoesTo (nextSlot s.pc (branchTarget i s)) s (completed i s v c) := by
  rcases completed_cases i s v c with ⟨hlt, hrun, hpc⟩ | ⟨hge, hrun, -⟩
  · exact ⟨fun _ => ⟨hpc, hrun⟩, fun hge => absurd hlt (by omega)⟩
  · exact ⟨fun hlt => absurd hlt (by omega), fun _ => hrun⟩

end Completed

theorem completed_acc {i : Instr} (h : writesAcc i = false) (s : State) (v : Byte) (c : InputChannel) :
    (completed i s v c).acc = s.acc := by
  simp [completed, apply_ownWrite_acc h]

theorem completed_memRead {i : Instr} {s : State} {a : Byte} (h : ramTarget i s ≠ some a) (v : Byte) (c : InputChannel) :
    (completed i s v c).memRead a = s.memRead a := by
  simp [completed, apply_ownWrite_memRead h]

theorem Delivered.input_eq {i : Instr} {s : State} {v : Byte} {c : InputChannel} (h : Delivered i s v c)
    (hreq : requestsInput i = false) : c = s.input := by
  rcases h with ⟨htrue, -⟩ | ⟨-, hc⟩
  · simp [hreq] at htrue
  · exact hc

end Sys2Proof.Machine

/-! PROOFS. Input, control transfer and halt (42_io.md R77, R78; 43_branch.md R81 to R83; 40_dispatch.md R67, R68) and the
adder (44_arith.md R84). -/

namespace Sys2Proof.Machine

/-! ### Input -/

theorem take_of_supplied {c : InputChannel} {item : InputItem} {rest : List InputItem} (h : c.supplied = item :: rest) :
    c.take = some (item.value, { c with supplied := rest }) := by
  simp [InputChannel.take, h]

theorem take_of_exhausted {c : InputChannel} (h : c.supplied = []) (hended : c.ended = true) :
    c.take = some (0xFF#8, c) := by
  simp [InputChannel.take, h, hended, InputItem.value, Config.eofByte]

theorem take_eq_none_iff {c : InputChannel} : c.take = none ↔ c.supplied = [] ∧ c.ended = false := by
  rcases take_cases c with ⟨item, rest, hitems, htake⟩ | ⟨hitems, hended, htake⟩ | ⟨hitems, hended, htake⟩ <;>
    simp [*]

/-- All that R does once it has taken the byte `v`: it loads it. -/
theorem exec_readAcc_of_take {s : State} {v : Byte} {c : InputChannel} (htake : s.input.take = some (v, c)) (k : Byte) :
    ∃ t, exec (.readAcc k) s = .next t ∧ t.acc = v ∧ t.input = c ∧ t.output = s.output ∧
      SameRam s t ∧ SameRecords s t ∧ FallsThrough s t := by
  have hexec : exec (.readAcc k) s = complete none (State.setAcc { s with input := c } v) := withInput_of_take htake _
  obtain ⟨t, hdone, acc_set, ram_kept, ⟨hinput, houtput⟩, records_kept, hpc⟩ :=
    complete_setAcc_result { s with input := c } v
  exact ⟨t, hexec.trans hdone, acc_set, hinput, houtput, ram_kept, records_kept, hpc⟩

/-- All that r does once it has taken the byte `v`: it stores it at `k`. -/
theorem exec_readMem_of_take {s : State} {v : Byte} {c : InputChannel} (htake : s.input.take = some (v, c)) (k : Byte) :
    ∃ t, exec (.readMem k) s = .next t ∧ t.memRead k = v ∧ SameRamBut k s t ∧ t.acc = s.acc ∧ t.input = c ∧
      t.output = s.output ∧ SameRecords s t ∧ FallsThrough s t := by
  have hexec : exec (.readMem k) s = complete none (State.memWrite { s with input := c } k v) :=
    withInput_of_take htake fun u b => u.memWrite (directAddr k) b
  obtain ⟨t, hdone, cell_set, other_cells, acc_kept, ⟨hinput, houtput⟩, records_kept, hpc⟩ :=
    complete_memWrite_result { s with input := c } k v
  exact ⟨t, hexec.trans hdone, cell_set, other_cells, acc_kept, hinput, houtput, records_kept, hpc⟩

theorem value_eq_of_byte {item : InputItem} {v : Byte} (hv : v = item.value) (b : Byte) (h : item = .byte b) : v = b := by
  rw [hv, h]; rfl

theorem value_eq_of_eof {item : InputItem} {v : Byte} (hv : v = item.value) (h : item = .eof) : v = 0xFF#8 := by
  rw [hv, h]; rfl

/-- Settles O9, by the three states of the input channel. -/
theorem readAccResult : Obligations.ReadAccResult := by
  intro k s
  refine ⟨fun item rest hitems => ?_, fun hitems hended => ?_, fun hitems hended => ?_⟩
  · obtain ⟨t, hexec, acc_set, frame⟩ := exec_readAcc_of_take (take_of_supplied hitems) k
    exact ⟨t, hexec, value_eq_of_byte acc_set, value_eq_of_eof acc_set, frame⟩
  · obtain ⟨t, hexec, acc_set, hinput, houtput, frame⟩ := exec_readAcc_of_take (take_of_exhausted hitems hended) k
    exact ⟨t, hexec, acc_set, ⟨hinput, houtput⟩, frame⟩
  · exact exec_of_waits ⟨rfl, take_eq_none_iff.2 ⟨hitems, hended⟩⟩

/-- Settles O10, by the same three states. -/
theorem readMemResult : Obligations.ReadMemResult := by
  intro k s
  refine ⟨fun item rest hitems => ?_, fun hitems hended => ?_, fun hitems hended => ?_⟩
  · obtain ⟨t, hexec, cell_set, other_cells, acc_kept, hinput, houtput, frame⟩ :=
      exec_readMem_of_take (take_of_supplied hitems) k
    exact ⟨t, hexec, value_eq_of_byte cell_set, value_eq_of_eof cell_set, other_cells, directAddr_eq k, hinput, houtput,
      acc_kept, frame⟩
  · obtain ⟨t, hexec, cell_set, other_cells, acc_kept, hinput, houtput, frame⟩ :=
      exec_readMem_of_take (take_of_exhausted hitems hended) k
    exact ⟨t, hexec, cell_set, other_cells, ⟨hinput, houtput⟩, acc_kept, frame⟩
  · exact exec_of_waits ⟨rfl, take_eq_none_iff.2 ⟨hitems, hended⟩⟩

/-! ### Control transfer and halt -/

/-- All that a branch to `target` does. -/
theorem complete_takenIfZero_result (s : State) (target : Byte) :
    ∃ t, complete (takenIfZero s target) s = .next t ∧
      (s.acc = 0#8 → GoesTo target.toNat s t) ∧ (s.acc ≠ 0#8 → FallsThrough s t) ∧
      (s.acc = 0#8 → target = 255#8 → t.pc = 255#8) ∧
      t.acc = s.acc ∧ SameRam s t ∧ SameChannels s t ∧ SameRecords s t := by
  have hgoes := endCycle_goesTo (takenIfZero s target) s
  have hnext := nextSlot_takenIfZero s target
  refine ⟨_, complete_eq _ s, fun hzero => ?_, fun hnonzero => ?_, fun hzero htarget => ?_,
    State.endCycle_acc _ s, fun a => State.memRead_endCycle _ s a, sameChannels_endCycle ⟨rfl, rfl⟩,
    sameRecords_of_complete (complete_eq _ s) ⟨rfl, rfl⟩⟩
  · rwa [hnext, if_pos hzero] at hgoes
  · rwa [hnext, if_neg hnonzero] at hgoes
  · have hterminator : 255 ≤ nextSlot s.pc (takenIfZero s target) := by
      rw [hnext, if_pos hzero, htarget]; decide
    exact (State.endCycle_terminator _ s hterminator).1

theorem exec_branch (k : Byte) (s : State) : exec (.branch k) s = complete (takenIfZero s k) s := rfl

theorem exec_branchInd (k : Byte) (s : State) :
    exec (.branchInd k) s = complete (takenIfZero s (s.memRead k)) s := rfl

/-- A pointer to itself makes the two targets one, so b is B. -/
theorem exec_branchInd_of_self_pointer {k : Byte} {s : State} (hself : s.memRead k = k) :
    exec (.branchInd k) s = exec (.branch k) s := by
  rw [exec_branchInd, exec_branch, hself]

/-- Settles O13: B is a branch to `k`. -/
theorem branchDirectResult : Obligations.BranchDirectResult := by
  intro k s
  rw [exec_branch]
  exact ⟨rfl, complete_takenIfZero_result s k⟩

/-- Settles O14: b is a branch to `mem[k]`. -/
theorem branchIndirectResult : Obligations.BranchIndirectResult := by
  intro k s
  refine ⟨rfl, exec_branchInd_of_self_pointer, ?_⟩
  rw [exec_branchInd]
  exact complete_takenIfZero_result s (s.memRead k)

/-- Settles O15: D is `halt(pc)` and nothing else. -/
theorem haltResult : Obligations.HaltResult := by
  intro k s
  have hexec : exec (.halt k) s = .next (s.haltAt s.pc) := exec_of_writesRun rfl s
  exact ⟨rfl, _, hexec, State.haltAt_run s _, State.haltAt_pc s _, State.haltAt_acc s _,
    fun a => State.memRead_haltAt s _ a, ⟨State.haltAt_input s _, State.haltAt_output s _⟩,
    exec_sameRecords hexec⟩

/-- Settles O16: only D leaves RUNNING by itself, and an instruction that completes with no branch target goes to the slot
after this one. -/
theorem onlyBranchesTransferControl : Obligations.OnlyBranchesTransferControl := by
  intro i s t hB hb hexec hrunning hrunning'
  rcases exec_next_cases hexec with ⟨-, rfl⟩ | ⟨⟨hreq, htake⟩, rfl⟩ | ⟨-, v, c, -, rfl⟩
  · cases hrunning'
  · exact .inr ⟨hreq, htake, rfl⟩
  · have hnext : nextSlot s.pc (branchTarget i s) = s.pc.toNat + 1 := by
      rw [branchTarget_eq_none (writesPc_eq_false_iff.2 ⟨hB, hb⟩) s]; rfl
    rcases completed_cases i s v c with ⟨-, -, hpc⟩ | ⟨-, hhalted, -⟩
    · exact .inl (hpc.trans hnext)
    · cases hhalted.symm.trans hrunning'

/-- Settles O17: what halts is D, at its own slot, or an instruction that completed at the terminator. -/
theorem haltLeavesPc : Obligations.HaltLeavesPc := by
  intro i s t hexec hrunning hhalted
  rcases exec_next_cases hexec with ⟨hrun, rfl⟩ | ⟨-, rfl⟩ | ⟨hrun, v, c, -, rfl⟩
  · obtain ⟨k, rfl⟩ := writesRun_eq_true_iff.1 hrun
    exact ⟨fun _ => rfl, fun hne => absurd rfl (hne k)⟩
  · cases hhalted.symm.trans hrunning
  · refine ⟨fun hhalt => ?_, fun _ => ?_⟩
    · simp [writesRun_eq_true_iff.2 hhalt] at hrun
    · rcases completed_cases i s v c with ⟨-, hsame, -⟩ | ⟨-, -, hpc⟩
      · cases (hsame.symm.trans hhalted).symm.trans hrunning
      · exact hpc

/-- Settles O18, on the numbers: the two summands of the second sum make 256 or 0. -/
theorem adderWraps : Obligations.AdderWraps := by
  intro x y
  refine ⟨add8_toNat x y, BitVec.eq_of_toNat_eq ?_⟩
  have hx : x.toNat < 256 := x.isLt
  have hy : y.toNat < 256 := y.isLt
  rw [add8_toNat, add8_toNat, BitVec.toNat_ofNat]
  omega

end Sys2Proof.Machine

/-! PROOFS. The access matrix (10_state.md R28): what each instruction writes, and what it reads, by running it twice on
states that agree on what the matrix lists. -/

namespace Sys2Proof.Machine

/-! ### The write side -/

/-- Settles O26, column by column, for D, for an instruction that waits and for one that completes. -/
theorem onlyListedWrites : Obligations.OnlyListedWrites := by
  intro i s t hexec
  have records_kept : SameRecords s t := exec_sameRecords hexec
  rcases exec_next_cases hexec with ⟨hrun, rfl⟩ | ⟨hwait, rfl⟩ | ⟨hrun, v, c, hdeliv, rfl⟩
  · have hnowait : ¬ Waits i s := fun ⟨hreq, _⟩ => by simp [requestsInput_of_writesRun hrun] at hreq
    exact ⟨fun _ => rfl, fun _ _ => rfl, fun _ => rfl, fun _ => rfl, fun _ hfalse => by simp [hrun] at hfalse,
      fun _ => ⟨rfl, rfl⟩, fun hfalse => by simp [hrun] at hfalse, fun hwait => absurd hwait hnowait, records_kept⟩
  · obtain ⟨hreq, -⟩ := id hwait
    exact ⟨fun _ => rfl, fun _ _ => rfl, fun _ => rfl, fun _ => rfl, fun _ _ hnowait => absurd hwait hnowait,
      fun hrun => by simp [requestsInput_of_writesRun hrun] at hreq, fun _ => .inl rfl, fun _ => rfl, records_kept⟩
  · refine ⟨fun hacc => completed_acc hacc s v c, fun a ha => completed_memRead ha v c,
      fun hreq => (completed_input i s v c).trans (hdeliv.input_eq hreq), fun hnone => ?_, fun hpc _ _ => ?_,
      fun htrue => by simp [hrun] at htrue, fun _ => ?_, fun hwait => absurd hwait hdeliv.not_waits, records_kept⟩
    · simp [hnone]
    · have hgoes := completed_goesTo i s v c
      rwa [branchTarget_eq_none hpc] at hgoes
    · rcases completed_cases i s v c with ⟨-, hsame, -⟩ | ⟨-, hhalted, hpc⟩
      · exact .inl hsame
      · exact .inr ⟨hhalted, hpc⟩

/-! ### The read side of `acc` -/

theorem ownWrite_setAcc {i : Instr} (h : readsAcc i = false) (s : State) (x v : Byte) :
    ownWrite i (s.setAcc x) v = ownWrite i s v := by
  cases i with
  | store k | storeInd k | branch k | branchInd k | addImm k | writeAcc k | add k | addInd k => cases h
  | _ => rfl

theorem branchTarget_setAcc {i : Instr} (h : readsAcc i = false) (s : State) (x : Byte) :
    branchTarget i (s.setAcc x) = branchTarget i s := by
  cases i with
  | branch k | branchInd k => cases h
  | _ => rfl

theorem exists_ownWrite_eq_acc {i : Instr} (h : writesAcc i = true) (s : State) (v : Byte) :
    ∃ x, ownWrite i s v = .acc x := by
  cases i with
  | store k | storeInd k | readMem k | branch k | branchInd k | writeAcc k | writeMem k | halt k => cases h
  | _ => exact ⟨_, rfl⟩

theorem completed_acc_of_ownWrite {i : Instr} {s : State} {v x : Byte} (h : ownWrite i s v = .acc x) (c : InputChannel) :
    (completed i s v c).acc = x := by
  simp [completed, h, State.apply]

theorem endCycle_setAcc (o : Option Byte) (s : State) (x : Byte) :
    (s.setAcc x).endCycle o = (s.endCycle o).setAcc x := by
  simp [endCycle_eq, State.setAcc]

/-- What is written does not depend on what was in `acc`: all but `acc` itself. -/
theorem apply_setAcc (s : State) (w : OwnWrite) (x y : Byte) :
    ((s.setAcc x).apply w).setAcc y = (s.apply w).setAcc y := by
  cases w <;> rfl

theorem completed_setAcc {i : Instr} (h : readsAcc i = false) (s : State) (x v y : Byte) (c : InputChannel) :
    (completed i (s.setAcc x) v c).setAcc y = (completed i s v c).setAcc y := by
  simp only [completed, ownWrite_setAcc h, branchTarget_setAcc h, ← endCycle_setAcc]
  exact congrArg (State.endCycle _) (apply_setAcc { s with input := c } (ownWrite i s v) x y)

/-- Settles O27: the write and the branch target of such an instruction are the same from every accumulator, and what it
finds in the input channel too. -/
theorem accUnreadElsewhere : Obligations.AccUnreadElsewhere := by
  intro i s t x hreads hexec
  rcases exec_next_cases hexec with ⟨hrun, rfl⟩ | ⟨hwait, rfl⟩ | ⟨hrun, v, c, hdeliv, rfl⟩
  · refine ⟨_, exec_of_writesRun hrun _, rfl, fun hacc => ?_⟩
    obtain ⟨k, rfl⟩ := writesRun_eq_true_iff.1 hrun
    cases hacc
  · have hwait' : Waits i (t.setAcc x) := hwait
    exact ⟨_, exec_of_waits hwait', rfl, fun _ hnowait => absurd hwait hnowait⟩
  · have hdeliv' : Delivered i (s.setAcc x) v c := hdeliv
    refine ⟨_, exec_of_delivered hrun hdeliv', completed_setAcc hreads s x v 0#8 c, fun hacc _ => ?_⟩
    obtain ⟨b, hwrite⟩ := exists_ownWrite_eq_acc hacc s v
    have hwrite' : ownWrite i (s.setAcc x) v = .acc b := (ownWrite_setAcc hreads s x v).trans hwrite
    rw [completed_acc_of_ownWrite hwrite, completed_acc_of_ownWrite hwrite']

/-! ### The read side of RAM -/

/-- A RAM that agrees with the one of `s` on the cells the matrix lists as read by `i`. -/
def AgreesOnSources (i : Instr) (s : State) (m : Memory) : Prop := ∀ a ∈ ramSources i s, m.read a = s.memRead a

theorem memRead_withRam (s : State) (m : Memory) (a : Byte) : State.memRead { s with mem := m } a = m.read a := rfl

theorem ownWrite_of_agreesOnSources {i : Instr} {s : State} {m : Memory} (h : AgreesOnSources i s m) (v : Byte) :
    ownWrite i { s with mem := m } v = ownWrite i s v := by
  cases i with
  | load k | storeInd k | writeMem k | add k =>
    have hk : m.read k = s.memRead k := h k (by simp [ramSources])
    simp [ownWrite, memRead_withRam, hk]
  | loadInd k | addInd k =>
    have hk : m.read k = s.memRead k := h k (by simp [ramSources])
    have hp : m.read (s.memRead k) = s.memRead (s.memRead k) := h _ (by simp [ramSources])
    simp [ownWrite, memRead_withRam, hk, hp]
  | _ => rfl

theorem branchTarget_of_agreesOnSources {i : Instr} {s : State} {m : Memory} (h : AgreesOnSources i s m) :
    branchTarget i { s with mem := m } = branchTarget i s := by
  cases i with
  | branchInd k =>
    have hk : m.read k = s.memRead k := h k (by simp [ramSources])
    simp [branchTarget, memRead_withRam, hk, takenIfZero, accZero]
  | _ => rfl

/-- The RAM a write meets shows in no other field. -/
theorem exists_apply_withRam (s : State) (m : Memory) (w : OwnWrite) :
    ∃ m', State.apply { s with mem := m } w = { s.apply w with mem := m' } := by
  cases w <;> exact ⟨_, rfl⟩

theorem exists_completed_withRam {i : Instr} {s : State} {m : Memory} (h : AgreesOnSources i s m) (v : Byte)
    (c : InputChannel) : ∃ m', completed i { s with mem := m } v c = { completed i s v c with mem := m' } := by
  obtain ⟨m', happly⟩ := exists_apply_withRam { s with input := c } m (ownWrite i s v)
  exact ⟨m', by simp [completed, ownWrite_of_agreesOnSources h, branchTarget_of_agreesOnSources h, happly, endCycle_eq]⟩

theorem exists_ownWrite_eq_ram {i : Instr} {s : State} {a : Byte} (h : ramTarget i s = some a) (v : Byte) :
    ∃ x, ownWrite i s v = .ram a x := by
  cases i with
  | store k | storeInd k | readMem k => cases h; exact ⟨_, rfl⟩
  | _ => cases h

theorem completed_memRead_of_ownWrite {i : Instr} {s : State} {v a x : Byte} (h : ownWrite i s v = .ram a x)
    (c : InputChannel) : (completed i s v c).memRead a = x := by
  simp [completed, h, State.apply]

/-- Settles O28: the write and the branch target are the same from two RAMs that agree on the cells listed. -/
theorem onlyListedCellsRead : Obligations.OnlyListedCellsRead := by
  intro i s t m hagree hexec
  rcases exec_next_cases hexec with ⟨hrun, rfl⟩ | ⟨hwait, rfl⟩ | ⟨hrun, v, c, hdeliv, rfl⟩
  · refine ⟨_, exec_of_writesRun hrun _, rfl, rfl, rfl, ⟨rfl, rfl⟩, ⟨rfl, rfl⟩, fun _ a ha => ?_⟩
    obtain ⟨k, rfl⟩ := writesRun_eq_true_iff.1 hrun
    cases ha
  · have hwait' : Waits i { t with mem := m } := hwait
    exact ⟨_, exec_of_waits hwait', rfl, rfl, rfl, ⟨rfl, rfl⟩, ⟨rfl, rfl⟩, fun hnowait => absurd hwait hnowait⟩
  · have hdeliv' : Delivered i { s with mem := m } v c := hdeliv
    obtain ⟨m', hsame⟩ := exists_completed_withRam hagree v c
    refine ⟨_, exec_of_delivered hrun hdeliv', by rw [hsame], by rw [hsame], by rw [hsame],
      by rw [hsame]; exact ⟨rfl, rfl⟩, by rw [hsame]; exact ⟨rfl, rfl⟩, fun _ a ha => ?_⟩
    obtain ⟨x, hwrite⟩ := exists_ownWrite_eq_ram ha v
    have hwrite' : ownWrite i { s with mem := m } v = .ram a x := (ownWrite_of_agreesOnSources hagree v).trans hwrite
    rw [completed_memRead_of_ownWrite hwrite, completed_memRead_of_ownWrite hwrite']

end Sys2Proof.Machine

/-! PROOFS. The cycle (40_dispatch.md R63 to R67; 60_exceptions.md R89, R90): what a step does with the word it fetches, when
it enters FAULTED, and when it has no next state. -/

namespace Sys2Proof.Machine

theorem step_of_not_running {s : State} (h : s.run ≠ .running) : step s = .next s := by
  rcases step_cases s with ⟨-, hs⟩ | ⟨hrun, -, -⟩ | ⟨⟨hrun, -⟩, -⟩ | ⟨⟨hrun, -⟩, -⟩
  · exact hs
  all_goals exact absurd hrun h

theorem step_of_decode {s : State} {i : Instr} (henabled : Enabled s) (hdecode : decode (s.romRead s.pc) = .ok i) :
    step s = exec i s := by
  obtain ⟨hrun, hpc⟩ := henabled
  rcases step_cases s with ⟨hnot, -⟩ | ⟨-, hterm, -⟩ | ⟨-, j, hj, hs⟩ | ⟨-, ⟨e, he⟩, -⟩
  · exact absurd hrun hnot
  · exact absurd hterm hpc
  · cases hj.symm.trans hdecode
    exact hs
  · cases he.symm.trans hdecode

theorem step_of_illegal {s : State} (henabled : Enabled s) (hillegal : ¬ LegalOpcode (wordOp (s.romRead s.pc))) :
    step s = .next (s.raiseIllegal (wordOp (s.romRead s.pc)) (wordOperand (s.romRead s.pc))) := by
  obtain ⟨hrun, hpc⟩ := henabled
  rcases step_cases s with ⟨hnot, -⟩ | ⟨-, hterm, -⟩ | ⟨-, j, hj, -⟩ | ⟨-, -, hs⟩
  · exact absurd hrun hnot
  · exact absurd hterm hpc
  · exact absurd (legalOpcode_of_decode hj) hillegal
  · exact hs

/-- The instruction the next step executes is the one the slot at `pc` decodes to. -/
theorem current_eq_some_iff {s : State} {i : Instr} :
    s.current = some i ↔ Enabled s ∧ decode (s.romRead s.pc) = .ok i := by
  rw [decode_eq_ok_iff_decodeOp, Enabled]
  unfold State.current State.fetch
  cases s.run with
  | running => by_cases hpc : s.pc = 255#8 <;> simp [hpc, Config.terminatorSlot]
  | halted => simp
  | faulted => simp

theorem step_of_current {s : State} {i : Instr} (h : s.current = some i) : step s = exec i s := by
  obtain ⟨henabled, hdecode⟩ := current_eq_some_iff.1 h
  exact step_of_decode henabled hdecode

theorem current_eq_none {s : State} (h : ∀ i, ¬ (Enabled s ∧ decode (s.romRead s.pc) = .ok i)) : s.current = none := by
  cases hcur : s.current with
  | none => rfl
  | some i => exact absurd (current_eq_some_iff.1 hcur) (h i)

/-- What a step that answers `t` did: it executed the current instruction; or there is none, and it left a stopped CORE as
it was or took the fault. -/
theorem step_next_cases {s t : State} (h : step s = .next t) :
    (∃ i, s.current = some i ∧ exec i s = .next t) ∨
    (s.current = none ∧ s.run ≠ .running ∧ t = s) ∨
    (s.current = none ∧ Enabled s ∧ ¬ LegalOpcode (wordOp (s.romRead s.pc)) ∧
      t = s.raiseIllegal (wordOp (s.romRead s.pc)) (wordOperand (s.romRead s.pc))) := by
  rcases step_cases s with ⟨hrun, hs⟩ | ⟨-, -, hs⟩ | ⟨henabled, i, hdecode, hs⟩ | ⟨henabled, herror, hs⟩
  · cases hs.symm.trans h
    exact .inr (.inl ⟨current_eq_none fun i ⟨⟨hrunning, _⟩, _⟩ => hrun hrunning, hrun, rfl⟩)
  · cases hs.symm.trans h
  · exact .inl ⟨i, current_eq_some_iff.2 ⟨henabled, hdecode⟩, hs.symm.trans h⟩
  · cases hs.symm.trans h
    have hillegal := exists_decode_eq_error_iff.1 herror
    exact .inr (.inr ⟨current_eq_none fun i ⟨_, hdecode⟩ => hillegal (legalOpcode_of_decode hdecode), henabled, hillegal,
      rfl⟩)

/-- Settles O29. -/
theorem stepRunsDecodedInstruction : Obligations.StepRunsDecodedInstruction :=
  fun _ i henabled hdecode => ⟨instr_wellFormed i, step_of_decode henabled hdecode⟩

/-- Settles O30: the placed word is read back by the fetch, and nothing else that the step looks at changed. -/
theorem placedInstructionRuns : Obligations.PlacedInstructionRuns := by
  intro s w i henabled htable
  have hfetch : (s.withFetchWord 16 w).romRead (s.withFetchWord 16 w).pc = tableWord 16 w :=
    Rom.read_write_same s.rom s.pc (tableWord 16 w)
  have henabled' : Enabled (s.withFetchWord 16 w) := henabled
  refine step_of_decode henabled' ?_
  rw [hfetch]
  exact decodeTableWord_eq_some_iff.1 htable

/-- Settles O31: the step takes the fault, and `State.raiseIllegal` writes the run state and the record only. -/
theorem illegalOpcodeFaults : Obligations.IllegalOpcodeFaults := by
  intro s henabled hillegal
  exact ⟨_, step_of_illegal henabled hillegal, State.raiseIllegal_run s _ _, rfl, rfl, rfl, rfl, State.raiseIllegal_pc s _ _,
    State.raiseIllegal_acc s _ _, fun a => State.memRead_raiseIllegal s _ _ a,
    ⟨State.raiseIllegal_input s _ _, State.raiseIllegal_output s _ _⟩, State.raiseIllegal_rom s _ _⟩

/-- An instruction keeps the run state or halts. -/
theorem run_of_exec {i : Instr} {s t : State} (h : exec i s = .next t) : t.run = s.run ∨ t.run = .halted := by
  rcases exec_next_cases h with ⟨-, rfl⟩ | ⟨-, rfl⟩ | ⟨-, v, c, -, rfl⟩
  · exact .inr rfl
  · exact .inl rfl
  · rcases completed_cases i s v c with ⟨-, hsame, -⟩ | ⟨-, hhalted, -⟩
    · exact .inl hsame
    · exact .inr hhalted

theorem run_ne_faulted_of_exec {i : Instr} {s t : State} (h : exec i s = .next t) (hs : s.run ≠ .faulted) :
    t.run ≠ .faulted := by
  rcases run_of_exec h with hsame | hhalted
  · rwa [hsame]
  · simp [hhalted]

/-- Settles O32: a legal opcode is executed, and no instruction enters FAULTED; an illegal one takes the fault. -/
theorem onlyIllegalOpcodesFault : Obligations.OnlyIllegalOpcodesFault := by
  constructor
  · intro s t henabled hstep
    obtain ⟨hrun, -⟩ := id henabled
    rcases step_next_cases hstep with ⟨i, hcur, hexec⟩ | ⟨-, hstopped, -⟩ | ⟨-, -, hillegal, rfl⟩
    · obtain ⟨-, hdecode⟩ := current_eq_some_iff.1 hcur
      have hnot : t.run ≠ .faulted := run_ne_faulted_of_exec hexec (by simp [hrun])
      exact ⟨fun hfaulted => absurd hfaulted hnot, fun hillegal => absurd (legalOpcode_of_decode hdecode) hillegal⟩
    · exact absurd hrun hstopped
    · exact ⟨fun _ => hillegal, fun _ => State.raiseIllegal_run s _ _⟩
  · intro i s
    obtain ⟨t, hexec⟩ := exists_exec_eq_next i s
    obtain ⟨hfault, -⟩ := exec_sameRecords hexec
    exact ⟨t, hexec, hfault, fun hfaulted => by_contra fun hs => run_ne_faulted_of_exec hexec hs hfaulted⟩

/-- Settles O33, by induction on the number of steps. -/
theorem terminalStatesHold : Obligations.TerminalStatesHold := by
  intro n s hstopped
  induction n with
  | zero => exact stepN_zero s
  | succ n ih => rw [stepN_succ_of_next (step_of_not_running hstopped), ih]

theorem exists_step_eq_next {s : State} (h : ¬ (s.run = .running ∧ s.pc = 255#8)) : ∃ t, step s = .next t := by
  rcases step_cases s with ⟨-, hs⟩ | ⟨hrun, hpc, -⟩ | ⟨-, i, -, hs⟩ | ⟨-, -, hs⟩
  · exact ⟨_, hs⟩
  · exact absurd ⟨hrun, hpc⟩ h
  · rw [hs]
    exact exists_exec_eq_next i s
  · exact ⟨_, hs⟩

theorem step_at_terminator {s : State} (hrun : s.run = .running) (hpc : s.pc = 255#8) :
    step s = .fault .terminatorSlot := by
  rcases step_cases s with ⟨hnot, -⟩ | ⟨-, -, hs⟩ | ⟨⟨-, hne⟩, -⟩ | ⟨⟨-, hne⟩, -⟩
  · exact absurd hrun hnot
  · exact hs
  all_goals exact absurd hpc hne

/-- Settles O34, by whether the CORE is RUNNING at the terminator slot. -/
theorem stepStopsOnlyAtTerminator : Obligations.StepStopsOnlyAtTerminator := by
  intro s
  by_cases hterm : s.run = .running ∧ s.pc = 255#8
  · obtain ⟨hrun, hpc⟩ := id hterm
    have hs := step_at_terminator hrun hpc
    exact ⟨by simp [hs], ⟨fun _ => hterm, fun _ => ⟨_, hs⟩⟩, by simp [hs, hterm]⟩
  · obtain ⟨t, hs⟩ := exists_step_eq_next hterm
    simp [hs, hterm]

end Sys2Proof.Machine

/-! PROOFS. The invariant of the machine (10_state.md R18; 60_exceptions.md R89): it holds at boot, every step keeps it, and
under it every step has a next state, so every run goes on. -/

namespace Sys2Proof.Machine

/-- No instruction spoils the RAM's canonical form. -/
theorem exec_ram_wf {i : Instr} {s t : State} (h : exec i s = .next t) (hwf : s.mem.wf) : t.mem.wf := by
  rcases exec_next_cases h with ⟨-, rfl⟩ | ⟨-, rfl⟩ | ⟨-, v, c, -, rfl⟩
  · exact hwf
  · exact hwf
  · exact completed_ram_wf i s v c hwf

/-- The opcode of the slot at `pc` is that of the instruction it decodes to. -/
theorem opcode_of_decode {w : Word} {i : Instr} (h : decode w = .ok i) : wordOp w = i.opcode := by
  rw [decode_eq_ok_iff_decodeOp, decodeOp_eq_some_iff] at h
  obtain ⟨hop, -⟩ := h
  exact hop.symm

theorem pc_of_halted_exec {i : Instr} {s t : State} (hdecode : decode (s.romRead s.pc) = .ok i) (hexec : exec i s = .next t)
    (hrunning : s.run = .running) (hhalted : t.run = .halted) : t.pc = 255#8 ∨ wordOp (t.romRead t.pc) = 0x44#8 := by
  obtain ⟨hD, hother⟩ := haltLeavesPc i s t hexec hrunning hhalted
  by_cases hhalt : ∃ k, i = .halt k
  · obtain ⟨k, rfl⟩ := hhalt
    obtain ⟨-, hrom⟩ := exec_sameRecords hexec
    have hpc : t.pc = s.pc := hD ⟨k, rfl⟩
    have hslot : t.romRead t.pc = s.romRead s.pc := by rw [State.romRead, State.romRead, hpc, hrom]
    exact .inr (hslot ▸ opcode_of_decode hdecode)
  · exact .inl (hother fun k hk => hhalt ⟨k, hk⟩)

theorem pc_of_running_exec {i : Instr} {s t : State} (hexec : exec i s = .next t) (hs : s.pc ≠ 255#8)
    (hrunning : t.run = .running) : t.pc.toNat ≤ 254 := by
  rcases exec_next_cases hexec with ⟨-, rfl⟩ | ⟨-, rfl⟩ | ⟨-, v, c, -, rfl⟩
  · cases hrunning
  · bv_omega
  · rcases completed_cases i s v c with ⟨hlt, -, hpc⟩ | ⟨-, hhalted, -⟩
    · omega
    · cases hhalted.symm.trans hrunning

theorem exec_keeps_coreInvariant {i : Instr} {s t : State} (hinv : CoreInvariant s) (henabled : Enabled s)
    (hdecode : decode (s.romRead s.pc) = .ok i) (hexec : exec i s = .next t) : CoreInvariant t := by
  obtain ⟨hrun, hpc⟩ := henabled
  obtain ⟨hfault, hrom⟩ := exec_sameRecords hexec
  have hnot : t.run ≠ .faulted := run_ne_faulted_of_exec hexec (by simp [hrun])
  exact {
    ram_canonical := exec_ram_wf hexec hinv.ram_canonical
    rom_canonical := hrom ▸ hinv.rom_canonical
    running_pc := pc_of_running_exec hexec hpc
    record_clear := fun _ => hfault.trans (hinv.record_clear (by simp [hrun]))
    halted_at := pc_of_halted_exec hdecode hexec hrun
    faulted_at := fun hfaulted => absurd hfaulted hnot }

theorem raiseIllegal_keeps_coreInvariant {s : State} (hinv : CoreInvariant s) (hpc : s.pc ≠ 255#8)
    (hillegal : ¬ LegalOpcode (wordOp (s.romRead s.pc))) :
    CoreInvariant (s.raiseIllegal (wordOp (s.romRead s.pc)) (wordOperand (s.romRead s.pc))) where
  ram_canonical := hinv.ram_canonical
  rom_canonical := hinv.rom_canonical
  running_pc := fun hrunning => nomatch hrunning
  record_clear := fun hnot => absurd rfl hnot
  halted_at := fun hhalted => nomatch hhalted
  faulted_at := fun _ => ⟨hpc, hillegal, rfl⟩

/-- Settles O42: an instruction keeps the invariant, so does taking the fault, and a stopped CORE steps to itself. -/
theorem stepKeepsInvariant : Obligations.StepKeepsInvariant := by
  intro s t hinv hstep
  rcases step_next_cases hstep with ⟨i, hcur, hexec⟩ | ⟨-, -, rfl⟩ | ⟨-, ⟨-, hpc⟩, hillegal, rfl⟩
  · obtain ⟨henabled, hdecode⟩ := current_eq_some_iff.1 hcur
    exact exec_keeps_coreInvariant hinv henabled hdecode hexec
  · exact hinv
  · exact raiseIllegal_keeps_coreInvariant hinv hpc hillegal

theorem boot_coreInvariant {rom : Rom} (hrom : rom.wf) (input : InputChannel) : CoreInvariant (State.boot rom input) where
  ram_canonical := reset_ram_wf
  rom_canonical := hrom
  running_pc := fun _ => Nat.zero_le 254
  record_clear := fun _ => rfl
  halted_at := fun hhalted => nomatch hhalted
  faulted_at := fun hfaulted => nomatch hfaulted

/-- Settles O43: reset is the boot of the model's own image and INPUT. -/
theorem invariantHoldsAtReset : Obligations.InvariantHoldsAtReset :=
  ⟨boot_coreInvariant reset_rom_wf State.reset.input, fun _ input hrom => boot_coreInvariant hrom input⟩

/-- The invariant rules out the one state in which a step stops. -/
theorem exists_step_of_coreInvariant {s : State} (hinv : CoreInvariant s) : ∃ t, step s = .next t := by
  refine exists_step_eq_next fun ⟨hrun, hpc⟩ => ?_
  have hle := hinv.running_pc hrun
  simp [hpc] at hle

theorem exists_stepN_of_coreInvariant (n : Nat) {s : State} (hinv : CoreInvariant s) : ∃ t, stepN n s = .next t := by
  induction n generalizing s with
  | zero => exact ⟨s, stepN_zero s⟩
  | succ n ih =>
    obtain ⟨u, hstep⟩ := exists_step_of_coreInvariant hinv
    rw [stepN_succ_of_next hstep]
    exact ih (stepKeepsInvariant s u hinv hstep)

/-- Settles O44: the invariant holds at boot and goes with every step. -/
theorem everyRunGoesOn : Obligations.EveryRunGoesOn := by
  intro rom input n hrom
  have hboot := boot_coreInvariant hrom input
  obtain ⟨t, hrun⟩ := exists_stepN_of_coreInvariant n hboot
  obtain ⟨-, hkept⟩ := romNeverChanges
  exact ⟨t, hrun, stepN_preserves (fun s t hstep hinv => stepKeepsInvariant s t hinv hstep) hrun hboot, hkept n _ t hrun⟩

end Sys2Proof.Machine

/-! PROOFS. Channels (10_state.md R25; 20_memory.md R36 to R39; 60_exceptions.md R98, R99): the output grows by what a step
shows, the input is taken from its front on request only, and a wait ends when the host answers it. -/

namespace Sys2Proof.Machine

/-! ### Output -/

theorem stepOutput_of_current {s : State} {i : Instr} (h : s.current = some i) : stepOutput s = emittedByte i s := by
  simp [stepOutput, h]

theorem stepOutput_of_current_none {s : State} (h : s.current = none) : stepOutput s = none := by
  simp [stepOutput, h]

theorem inReq_of_current {s : State} {i : Instr} (h : s.current = some i) : inReq s = requestsInput i := by
  simp [inReq, h]

theorem inReq_of_current_none {s : State} (h : s.current = none) : inReq s = false := by
  simp [inReq, h]

/-- The instruction behind the port `in_req`. -/
theorem exists_current_of_inReq {s : State} (h : inReq s = true) : ∃ i, s.current = some i ∧ requestsInput i = true := by
  cases hcur : s.current with
  | none => simp [inReq_of_current_none hcur] at h
  | some i => exact ⟨i, rfl, (inReq_of_current hcur).symm.trans h⟩

theorem stepOutput_of_inReq {s : State} (h : inReq s = true) : stepOutput s = none := by
  obtain ⟨i, hcur, hreq⟩ := exists_current_of_inReq h
  rw [stepOutput_of_current hcur, emittedByte_of_requestsInput hreq]

theorem exec_output {i : Instr} {s t : State} (h : exec i s = .next t) :
    t.output = s.output ++ (emittedByte i s).toList := by
  rcases exec_next_cases h with ⟨hrun, rfl⟩ | ⟨⟨hreq, -⟩, rfl⟩ | ⟨-, v, c, -, rfl⟩
  · simp [emittedByte_of_writesRun hrun]
  · simp [emittedByte_of_requestsInput hreq]
  · exact completed_output i s v c

theorem step_output {s t : State} (h : step s = .next t) : t.output = s.output ++ (stepOutput s).toList := by
  rcases step_next_cases h with ⟨i, hcur, hexec⟩ | ⟨hcur, -, rfl⟩ | ⟨hcur, -, -, rfl⟩
  · rw [stepOutput_of_current hcur, exec_output hexec]
  · simp [stepOutput_of_current_none hcur]
  · simp [stepOutput_of_current_none hcur]

theorem outPort_of_rst_false {p : InputPins} (h : p.rst = false) (s : State) : outPort p s = stepOutput s := by
  simp [outPort, h]

/-- Settles O35: an edge is a step, a step with the item at the pins, a wait, or a reset. -/
theorem outputPortMatchesHistory : Obligations.OutputPortMatchesHistory := by
  refine ⟨fun s t => step_output, fun p s t htick => ?_⟩
  rcases tick_cases p s with ⟨hrst, hs⟩ | ⟨hrst, hreq, -, hs⟩ | ⟨hrst, hreq, -, hs⟩ | ⟨hrst, -, hs⟩ <;>
    rw [hs] at htick <;> refine ⟨fun hlow => ?_, fun hhigh => ?_⟩
  · simp [hlow] at hrst
  · cases htick
    exact ⟨by simp [outPort, hrst], State.resetRun_output s _⟩
  · have hreq' : inReq (s.present p.item) = true := hreq
    rw [step_output htick, outPort_of_rst_false hrst, stepOutput_of_inReq hreq, stepOutput_of_inReq hreq',
      State.present_output]
  · simp [hhigh] at hrst
  · cases htick
    simp [outPort_of_rst_false hrst, stepOutput_of_inReq hreq]
  · simp [hhigh] at hrst
  · rw [step_output htick, outPort_of_rst_false hrst]
  · simp [hhigh] at hrst

theorem length_toList_le_one (o : Option Byte) : o.toList.length ≤ 1 := by
  cases o <;> simp

/-- Settles O36, by induction on the number of steps: each appends one byte at most. -/
theorem emittedBytesRemain : Obligations.EmittedBytesRemain := by
  intro n s t hrun
  induction n generalizing s with
  | zero => cases hrun; exact ⟨[], by simp⟩
  | succ n ih =>
    obtain ⟨u, hstep, hrest⟩ := stepN_succ_cases hrun
    obtain ⟨later, hout, hlen⟩ := ih u hrest
    have hone := length_toList_le_one (stepOutput s)
    exact ⟨(stepOutput s).toList ++ later, by rw [hout, step_output hstep, List.append_assoc],
      by rw [List.length_append]; omega⟩

/-! ### Input -/

/-- What an instruction does to the channel: nothing without a request, else what `take` does. -/
theorem exec_input {i : Instr} {s t : State} (h : exec i s = .next t) :
    (requestsInput i = false ∧ t.input = s.input) ∨
    (requestsInput i = true ∧ s.input.take = none ∧ t.input = s.input) ∨
    (requestsInput i = true ∧ ∃ v, s.input.take = some (v, t.input)) := by
  rcases exec_next_cases h with ⟨hrun, rfl⟩ | ⟨⟨hreq, htake⟩, rfl⟩ | ⟨-, v, c, ⟨hreq, htake⟩ | ⟨hreq, rfl⟩, rfl⟩
  · exact .inl ⟨requestsInput_of_writesRun hrun, rfl⟩
  · exact .inr (.inl ⟨hreq, htake, rfl⟩)
  · exact .inr (.inr ⟨hreq, v, by rw [htake, completed_input]⟩)
  · exact .inl ⟨hreq, completed_input i s v _⟩

theorem take_consumes_at_most_first {c c' : InputChannel} {v : Byte} (h : c.take = some (v, c')) :
    (c.supplied = [] ∧ c' = c) ∨ ∃ item, c.supplied = item :: c'.supplied ∧ c'.ended = c.ended := by
  rcases take_cases c with ⟨item, rest, hitems, htake⟩ | ⟨hitems, -, htake⟩ | ⟨-, -, htake⟩ <;> cases htake.symm.trans h
  · exact .inr ⟨item, hitems, rfl⟩
  · exact .inl ⟨hitems, rfl⟩

/-- Settles O37: only an executing R or r takes from the channel. -/
theorem inputTakenOnlyOnRequest : Obligations.InputTakenOnlyOnRequest := by
  intro s t hstep
  rcases step_next_cases hstep with ⟨i, hcur, hexec⟩ | ⟨hcur, -, rfl⟩ | ⟨hcur, -, -, rfl⟩
  · rw [inReq_of_current hcur]
    rcases exec_input hexec with ⟨hreq, hsame⟩ | ⟨hreq, htake, hsame⟩ | ⟨hreq, v, htake⟩
    · exact ⟨fun _ => hsame, fun htrue => by simp [hreq] at htrue⟩
    · exact ⟨fun _ => hsame, fun _ => .inl ⟨(take_eq_none_iff.1 htake).1, hsame⟩⟩
    · exact ⟨fun hfalse => by simp [hreq] at hfalse, fun _ => take_consumes_at_most_first htake⟩
  · simp [inReq_of_current_none hcur]
  · simp [inReq_of_current_none hcur]

/-- The CORE waits exactly if the current instruction does. -/
theorem waiting_eq_true_iff {s : State} : waiting s = true ↔ inReq s = true ∧ s.input.take = none := by
  simp [waiting, take_eq_none_iff, and_assoc]

theorem step_of_waiting {s : State} (h : waiting s = true) : step s = .next s := by
  obtain ⟨hreq, htake⟩ := waiting_eq_true_iff.1 h
  obtain ⟨i, hcur, hi⟩ := exists_current_of_inReq hreq
  rw [step_of_current hcur, exec_of_waits ⟨hi, htake⟩]

/-- A request that the channel can answer completes and leaves the channel as `take` does. -/
theorem exists_step_of_take {s : State} {v : Byte} {c : InputChannel} (hreq : inReq s = true)
    (htake : s.input.take = some (v, c)) : ∃ t, step s = .next t ∧ t.input = c := by
  obtain ⟨i, hcur, hi⟩ := exists_current_of_inReq hreq
  exact ⟨_, (step_of_current hcur).trans (exec_of_take_eq_some hi htake), completed_input i s v c⟩

/-- Settles O38: the channel of a waiting CORE is empty, so the supplied item is the one taken. -/
theorem waitHoldsUntilSupplied : Obligations.WaitHoldsUntilSupplied := by
  intro s hwaiting
  obtain ⟨hreq, hnone⟩ := waiting_eq_true_iff.1 hwaiting
  obtain ⟨hitems, -⟩ := take_eq_none_iff.1 hnone
  refine ⟨step_of_waiting hwaiting, by simp [waiting], fun item => ⟨by simp [waiting], ?_⟩⟩
  have hreq' : inReq (s.supply item) = true := hreq
  have hfront : (s.supply item).input.supplied = item :: [] := by simp [hitems]
  obtain ⟨t, hstep, hinput⟩ := exists_step_of_take hreq' (take_of_supplied hfront)
  have hchannel : t.input = { s.input with supplied := [] } := hinput
  exact ⟨t, hstep, by rw [hchannel, ← hitems]⟩

end Sys2Proof.Machine

/-! PROOFS. Acts from outside that no step notices (40_dispatch.md R67, R71; 20_memory.md R36): each changes the input
channel or the ROM where the step does not look, and a step commutes with every such change. -/

namespace Sys2Proof.Machine

/-- The same CORE with another channel and another ROM. -/
def State.mapOutside (s : State) (f : InputChannel → InputChannel) (g : Rom → Rom) : State :=
  { s with input := f s.input, rom := g s.rom }

/-- `f` changes nothing that taking the next item shows. -/
def CommutesWithTake (f : InputChannel → InputChannel) (c : InputChannel) : Prop :=
  (c.take = none → (f c).take = none) ∧ ∀ v c', c.take = some (v, c') → (f c).take = some (v, f c')

section MapOutside
variable (f : InputChannel → InputChannel) (g : Rom → Rom)

theorem ownWrite_mapOutside (i : Instr) (s : State) (v : Byte) : ownWrite i (s.mapOutside f g) v = ownWrite i s v := by
  cases i <;> rfl

theorem branchTarget_mapOutside (i : Instr) (s : State) : branchTarget i (s.mapOutside f g) = branchTarget i s := by
  cases i <;> rfl

theorem apply_mapOutside (s : State) (w : OwnWrite) : (s.mapOutside f g).apply w = (s.apply w).mapOutside f g := by
  cases w <;> rfl

theorem endCycle_mapOutside (o : Option Byte) (s : State) :
    (s.mapOutside f g).endCycle o = (s.endCycle o).mapOutside f g := by
  simp [endCycle_eq, State.mapOutside]

theorem completed_mapOutside (i : Instr) (s : State) (v : Byte) (c : InputChannel) :
    completed i (s.mapOutside f g) v (f c) = (completed i s v c).mapOutside f g := by
  have hchannel : { s.mapOutside f g with input := f c } = State.mapOutside { s with input := c } f g := rfl
  simp only [completed, ownWrite_mapOutside, branchTarget_mapOutside, hchannel, apply_mapOutside, endCycle_mapOutside]

variable {f g}

theorem exec_mapOutside {i : Instr} {s t : State} (htake : requestsInput i = true → CommutesWithTake f s.input)
    (h : exec i s = .next t) : exec i (s.mapOutside f g) = .next (t.mapOutside f g) := by
  rcases exec_next_cases h with ⟨hrun, rfl⟩ | ⟨⟨hreq, hnone⟩, rfl⟩ | ⟨hrun, v, c, hdeliv, rfl⟩
  · exact exec_of_writesRun hrun _
  · obtain ⟨hwaits, -⟩ := htake hreq
    exact exec_of_waits ⟨hreq, hwaits hnone⟩
  · rw [← completed_mapOutside]
    refine exec_of_delivered hrun ?_
    rcases hdeliv with ⟨hreq, hsome⟩ | ⟨hreq, rfl⟩
    · obtain ⟨-, htakes⟩ := htake hreq
      exact .inl ⟨hreq, htakes v c hsome⟩
    · exact .inr ⟨hreq, rfl⟩

/-- A step commutes with a change outside it: the ROM may differ where the step does not fetch, the channel as far as a
requested item does not show. -/
theorem step_mapOutside {s t : State} (hword : Enabled s → (g s.rom).read s.pc = s.rom.read s.pc)
    (htake : inReq s = true → CommutesWithTake f s.input) (h : step s = .next t) :
    step (s.mapOutside f g) = .next (t.mapOutside f g) := by
  rcases step_next_cases h with ⟨i, hcur, hexec⟩ | ⟨-, hstopped, rfl⟩ | ⟨-, henabled, hillegal, rfl⟩
  · obtain ⟨henabled, hdecode⟩ := current_eq_some_iff.1 hcur
    have henabled' : Enabled (s.mapOutside f g) := henabled
    have hdecode' : decode ((s.mapOutside f g).romRead (s.mapOutside f g).pc) = .ok i :=
      (congrArg decode (hword henabled)).trans hdecode
    rw [step_of_decode henabled' hdecode']
    exact exec_mapOutside (fun hreq => htake ((inReq_of_current hcur).trans hreq)) hexec
  · exact step_of_not_running hstopped
  · have henabled' : Enabled (s.mapOutside f g) := henabled
    have hfetch : (s.mapOutside f g).romRead (s.mapOutside f g).pc = s.romRead s.pc := hword henabled
    have hillegal' : ¬ LegalOpcode (wordOp ((s.mapOutside f g).romRead (s.mapOutside f g).pc)) := by rwa [hfetch]
    rw [step_of_illegal henabled' hillegal', hfetch]
    rfl

end MapOutside

/-- What commutes with every step commutes with a run. -/
theorem stepN_commutes {φ : State → State} (hstep : ∀ s t, step s = .next t → step (φ s) = .next (φ t)) {n : Nat}
    {s t : State} (h : stepN n s = .next t) : stepN n (φ s) = .next (φ t) := by
  induction n generalizing s with
  | zero => cases h; exact stepN_zero _
  | succ n ih =>
    obtain ⟨u, hu, hrest⟩ := stepN_succ_cases h
    rw [stepN_succ_of_next (hstep s u hu), ih hrest]

/-! ### Supplying an item -/

/-- The channel with one more item at its end. -/
def InputChannel.supplyItem (item : InputItem) (c : InputChannel) : InputChannel :=
  { c with supplied := c.supplied ++ [item] }

theorem supply_eq_mapOutside (s : State) (item : InputItem) :
    s.supply item = s.mapOutside (InputChannel.supplyItem item) id := rfl

theorem commutesWithTake_supplyItem {c : InputChannel} (hitems : c.supplied ≠ []) (item : InputItem) :
    CommutesWithTake (InputChannel.supplyItem item) c := by
  obtain ⟨first, rest, hcons⟩ := List.exists_cons_of_ne_nil hitems
  simp [CommutesWithTake, InputChannel.supplyItem, InputChannel.take, hcons]

/-- Settles O39: a step that requests input and does not wait takes an item that is there already. -/
theorem arrivalTimeIrrelevant : Obligations.ArrivalTimeIrrelevant := by
  intro s t item hended hwaiting hstep
  rw [supply_eq_mapOutside, supply_eq_mapOutside]
  refine step_mapOutside (fun _ => rfl) (fun hreq => commutesWithTake_supplyItem (fun hempty => ?_) item) hstep
  have hwaits : waiting s = true := waiting_eq_true_iff.2 ⟨hreq, take_eq_none_iff.2 ⟨hempty, hended⟩⟩
  simp [hwaiting] at hwaits

/-! ### EOF and the byte 0xFF -/

/-- The channel with every EOF replaced by the byte it delivers. -/
def InputChannel.eofAsByte (c : InputChannel) : InputChannel :=
  { c with supplied := c.supplied.map fun item => .byte item.value }

theorem eofAsByte_eq_mapOutside (s : State) : s.eofAsByte = s.mapOutside InputChannel.eofAsByte id := rfl

theorem commutesWithTake_eofAsByte (c : InputChannel) : CommutesWithTake InputChannel.eofAsByte c := by
  obtain ⟨items, ended⟩ := c
  cases items with
  | nil => cases ended <;> simp [CommutesWithTake, InputChannel.eofAsByte, InputChannel.take]
  | cons item rest => simp [CommutesWithTake, InputChannel.eofAsByte, InputChannel.take, InputItem.value]

/-- Settles O40: both deliver the same byte. -/
theorem eofIndistinguishableFromByte : Obligations.EofIndistinguishableFromByte := by
  intro n s t hrun
  refine stepN_commutes (φ := State.eofAsByte) (fun u v hstep => ?_) hrun
  rw [eofAsByte_eq_mapOutside, eofAsByte_eq_mapOutside]
  exact step_mapOutside (fun _ => rfl) (fun _ => commutesWithTake_eofAsByte u.input) hstep

/-! ### The word in slot 255 -/

theorem setSlot_eq_mapOutside (s : State) (n : Byte) (w : Word) :
    s.setSlot n w = s.mapOutside id fun rom => rom.write n w := rfl

theorem commutesWithTake_id (c : InputChannel) : CommutesWithTake id c :=
  ⟨fun h => h, fun _ _ h => h⟩

/-- Settles O41: slot 255 is never fetched. -/
theorem terminatorSlotUnobservable : Obligations.TerminatorSlotUnobservable := by
  intro n s t w hrun
  refine stepN_commutes (φ := fun u => u.setSlot 255#8 w) (fun u v hstep => ?_) hrun
  rw [setSlot_eq_mapOutside, setSlot_eq_mapOutside]
  exact step_mapOutside (fun ⟨_, hpc⟩ => Rom.read_write_other u.rom 255#8 u.pc w hpc)
    (fun _ => commutesWithTake_id u.input) hstep

end Sys2Proof.Machine

/-! PROOFS. Reset, ports and pins (10_state.md R20, R27; 60_exceptions.md R92, R98, R99, R103; 70_reset_and_hazards.md R104,
R105). -/

namespace Sys2Proof.Machine

/-- Settles O47, by the fields of `State.resetRun`. -/
theorem resetFromAnyState : Obligations.ResetFromAnyState :=
  fun s input => ⟨State.resetRun_acc s input, State.resetRun_pc s input, State.resetRun_run s input,
    State.resetRun_fault s input, fun a => Memory.read_nil a, State.resetRun_input s input,
    State.resetRun_output s input, State.resetRun_rom s input⟩

/-- Settles O46: reset is a boot. -/
theorem resetValues : Obligations.ResetValues :=
  ⟨State.boot_acc _ _, State.boot_pc _ _, State.boot_run _ _, State.boot_fault _ _,
    fun a => State.memRead_boot State.reset.rom State.reset.input a, State.boot_output _ _⟩

theorem tick_of_rst {p : InputPins} (h : p.rst = true) (s : State) : tick p s = .next (s.resetRun .awaiting) := by
  simp [tick, h]

/-- Settles O48: the edge looks at `rst` first. -/
theorem resetPinWins : Obligations.ResetPinWins :=
  fun _ s h => tick_of_rst h s

/-- Settles O51, by the three values of the run state. -/
theorem statusPortsShowState : Obligations.StatusPortsShowState := by
  intro s
  cases hrun : s.run <;> simp [statusPorts, dbgData, exitCode, hrun]

theorem tick_of_valid_request {p : InputPins} {s : State} (hrst : p.rst = false) (hreq : inReq s = true)
    (hvalid : p.inValid = true) : tick p s = step (s.present p.item) := by
  simp [tick, hrst, hreq, hvalid]

theorem tick_of_unanswered_request {p : InputPins} {s : State} (hrst : p.rst = false) (hreq : inReq s = true)
    (hinvalid : p.inValid = false) : tick p s = .next s := by
  simp [tick, hrst, hreq, hinvalid]

theorem tick_of_no_request {p : InputPins} {s : State} (hrst : p.rst = false) (hreq : inReq s = false) :
    tick p s = step s := by
  simp [tick, hrst, hreq]

theorem item_value (p : InputPins) : p.item.value = if p.inEof then 0xFF#8 else p.inData := by
  unfold InputPins.item
  split <;> rfl

theorem take_present (s : State) (item : InputItem) :
    (s.present item).input.take = some (item.value, { s.input with supplied := s.input.supplied.tail }) := rfl

/-- At an answered request the current instruction runs with the item at the pins. -/
theorem tick_of_current {p : InputPins} {s : State} {i : Instr} (hrst : p.rst = false) (hcur : s.current = some i)
    (hi : requestsInput i = true) (hvalid : p.inValid = true) : tick p s = exec i (s.present p.item) := by
  have hcur' : (s.present p.item).current = some i := (current_present s p.item).trans hcur
  rw [tick_of_valid_request hrst ((inReq_of_current hcur).trans hi) hvalid, step_of_current hcur']

/-- Settles O49: the item at the pins is the one R or r takes. -/
theorem inputHandshake : Obligations.InputHandshake := by
  intro p s hrst
  refine ⟨tick_of_unanswered_request hrst, fun k hcur hvalid => ?_, fun k hcur hvalid => ?_, tick_of_no_request hrst⟩
  · obtain ⟨t, hexec, acc_set, frame⟩ := exec_readAcc_of_take (take_present s p.item) k
    exact ⟨t, (tick_of_current hrst hcur rfl hvalid).trans hexec, acc_set.trans (item_value p), frame⟩
  · obtain ⟨t, hexec, cell_set, frame⟩ := exec_readMem_of_take (take_present s p.item) k
    exact ⟨t, (tick_of_current hrst hcur rfl hvalid).trans hexec, cell_set.trans (item_value p), frame⟩

theorem present_of_supplied {s : State} {item : InputItem} {rest : List InputItem} (h : s.input.supplied = item :: rest) :
    s.present item = s := by
  have hchannel : { s.input with supplied := item :: s.input.supplied.tail } = s.input := by
    rw [h, List.tail_cons, ← h]
  rw [State.present, hchannel]

/-- An instruction that completes sees of the channel only the byte it took. -/
theorem completed_present (i : Instr) (s : State) (item : InputItem) (v : Byte) (c : InputChannel) :
    completed i (s.present item) v c = completed i s v c := by
  cases i <;> rfl

/-- EOF at the pins is what an exhausted INPUT gives. -/
theorem exec_present_eof {i : Instr} {s : State} (hi : requestsInput i = true) (hitems : s.input.supplied = [])
    (hended : s.input.ended = true) : exec i (s.present .eof) = exec i s := by
  have htail : { s.input with supplied := s.input.supplied.tail } = s.input := by
    rw [hitems, List.tail_nil, ← hitems]
  have htake : (s.present .eof).input.take = some (0xFF#8, s.input) := by rw [take_present, htail]; rfl
  rw [exec_of_take_eq_some hi htake, completed_present, exec_of_take_eq_some hi (take_of_exhausted hitems hended)]

/-- Settles O50, by the two ways of serving a request. -/
theorem pinsThatServeInputStep : Obligations.PinsThatServeInputStep := by
  intro p s hrst hserves
  cases hreq : inReq s with
  | false => exact tick_of_no_request hrst hreq
  | true =>
    obtain ⟨hvalid, ⟨rest, hnext⟩ | ⟨hitems, hended, heof⟩⟩ := hserves hreq
    · rw [tick_of_valid_request hrst hreq hvalid, present_of_supplied hnext]
    · obtain ⟨i, hcur, hi⟩ := exists_current_of_inReq hreq
      rw [tick_of_current hrst hcur hi hvalid, heof, exec_present_eof hi hitems hended, step_of_current hcur]

end Sys2Proof.Machine

/-! PROOFS. The reference datapath (40_dispatch.md R72) does what the step does: its controls name the instruction the
decoder finds, and its writeback is the one write and the branch target of that instruction. -/

namespace Sys2Proof.Machine

theorem controlsOf_opcode (i : Instr) :
    (controlsOf i.opcode).illegal = false ∧ (controlsOf i.opcode).halt = writesRun i ∧
    (controlsOf i.opcode).inReq = requestsInput i := by
  cases i <;> exact ⟨rfl, rfl, rfl⟩

theorem controlsOf_illegal {op : Byte} (hop : ¬ LegalOpcode op) : (controlsOf op).illegal = true := by
  have hnone : decodeOp op 0#8 = none := decodeOp_eq_none_iff.2 hop
  unfold decodeOp at hnone
  unfold controlsOf
  split at hnone
  case h_16 => simp [*]
  all_goals cases hnone

/-- The datapath's adder is the model's. -/
theorem ofNat_sum_eq_add8 (x y : Byte) : BitVec.ofNat 8 ((x.toNat + y.toNat) % 256) = add8 x y :=
  BitVec.eq_of_toNat_eq (by simp [add8_toNat])

/-- The datapath's zero detect is the model's. -/
theorem decide_toNat_eq_zero (s : State) : decide (s.acc.toNat = 0) = accZero s := by
  simp [accZero, ← BitVec.toNat_inj]

theorem datapathWriteback_eq_completed {i : Instr} (hrun : writesRun i = false) (s : State) (v : Byte) (c : InputChannel) :
    datapathWriteback (controlsOf i.opcode) i.operand s v c = completed i s v c := by
  rw [completed, endCycle_eq, datapathWriteback]
  simp only [ofNat_sum_eq_add8, decide_toNat_eq_zero]
  cases i with
  | halt k => cases hrun
  | branch k | branchInd k =>
    cases hz : accZero s <;> simp [controlsOf, Instr.opcode, Instr.operand, ownWrite, branchTarget,
      takenIfZero, hz, nextSlot, State.apply]
  | _ => rfl

/-- The datapath fetches and decodes as the step does, and its halt, its wait and its writeback are the three things an
instruction can do. -/
theorem datapathStep_of_decode {s : State} {i : Instr} (henabled : Enabled s) (hdecode : decode (s.romRead s.pc) = .ok i) :
    datapathStep s = exec i s := by
  obtain ⟨hrunning, hpc⟩ := henabled
  obtain ⟨hop, hk⟩ := decodeOp_eq_some_iff.1 (decode_eq_ok_iff_decodeOp.1 hdecode)
  have hop' : (s.romRead s.pc).extractLsb' 8 8 = i.opcode := hop.symm
  have hk' : (s.romRead s.pc).extractLsb' 0 8 = i.operand := hk.symm
  obtain ⟨hlegal, hhalt, hreq⟩ := controlsOf_opcode i
  simp only [datapathStep, hop', hk', hrunning, hpc, hlegal, hhalt, hreq]
  rcases exec_cases i s with ⟨hrun, hs⟩ | ⟨⟨hi, htake⟩, hs⟩ | ⟨hrun, v, c, ⟨hi, htake⟩ | ⟨hi, rfl⟩, hs⟩
  · simp [hs, hrun, State.haltAt]
  · simp [hs, writesRun_of_requestsInput hi, hi, htake]
  · simp [hs, hrun, hi, htake, datapathWriteback_eq_completed hrun]
  · simp [exec_of_requestsInput_false hi hrun s 0#8, hrun, hi, datapathWriteback_eq_completed hrun]

/-- Settles O45, by what a step can do. -/
theorem datapathRefinesStep : Obligations.DatapathRefinesStep := by
  intro s
  rcases step_cases s with ⟨hstopped, hs⟩ | ⟨hrunning, hpc, hs⟩ | ⟨henabled, i, hdecode, hs⟩ |
    ⟨⟨hrunning, hpc⟩, herror, hs⟩ <;> rw [hs]
  · simp [datapathStep, hstopped]
  · simp [datapathStep, hrunning, hpc]
  · exact datapathStep_of_decode henabled hdecode
  · have hillegal : (controlsOf ((s.romRead s.pc).extractLsb' 8 8)).illegal = true :=
      controlsOf_illegal (exists_decode_eq_error_iff.1 herror)
    simp [datapathStep, hrunning, hpc, hillegal, State.raiseIllegal, wordOp, wordOperand]

end Sys2Proof.Machine

/-! PROOFS. The Loader (30_encoding.md R59, R60): the image of a program, the text of a program read back, and what a text
must be for the scanner to take it. -/

namespace Sys2Proof.Machine

/-! ### The image -/

theorem contains_legalOpcodes_iff {op : Byte} : legalOpcodes.contains op = true ↔ LegalOpcode op := by
  have hperm : legalOpcodes.Perm [0x47#8, 0x67#8, 0x4F#8, 0x6F#8, 0x52#8, 0x72#8, 0x42#8, 0x62#8, 0x49#8, 0x54#8, 0x74#8,
      0x53#8, 0x41#8, 0x61#8, 0x44#8] := by decide
  rw [List.contains_iff_mem, hperm.mem_iff, LegalOpcode]

theorem slotWord_of_token {p : List Token} {n : Nat} {t : Token} (h : p[n]? = some t) (fill : Byte) :
    slotWord fill p n = packWord t.letter (BitVec.ofNat 8 t.operand) := by
  simp [slotWord, h]

theorem slotWord_of_eq_length {p : List Token} {n : Nat} (h : n = p.length) (fill : Byte) :
    slotWord fill p n = packWord 0x44#8 0#8 := by
  simp [slotWord, h]

theorem slotWord_of_length_lt {p : List Token} {n : Nat} (h : p.length < n) (fill : Byte) :
    slotWord fill p n = packWord fill 0#8 := by
  have hnone : p[n]? = none := List.getElem?_eq_none (by omega)
  simp [slotWord, hnone, show n ≠ p.length by omega]

theorem operand_le_of_wellFormed {t : Token} (h : t.wellFormed = true) : t.operand ≤ 255 := by
  simp only [Token.wellFormed, Bool.and_eq_true, decide_eq_true_eq] at h
  exact h.2

theorem programWellFormed_iff {p : List Token} :
    programWellFormed p = true ↔ p.length < 256 ∧ p.all Token.wellFormed = true := by
  simp [programWellFormed]

theorem romImage_of_wellFormed {p : List Token} (hp : programWellFormed p = true) (fill : Byte) :
    romImage fill p = if legalOpcodes.contains fill then .error (.legalFill fill) else .ok (Rom.ofFn (slotWord fill p)) := by
  obtain ⟨hlen, hall⟩ := programWellFormed_iff.1 hp
  simp [romImage, hall, show ¬ 256 ≤ p.length by omega]

/-- Settles O52: the image is the one of `slotWord`, slot by slot. -/
theorem loaderBuildsImage : Obligations.LoaderBuildsImage := by
  intro fill p
  refine ⟨fun hbig => by simp [romImage, hbig], fun hlen hbad => ?_, fun hp hfill => ?_, fun hp hfill => ?_⟩
  · simp [romImage, hbad, show ¬ 256 ≤ p.length by omega]
  · rw [romImage_of_wellFormed hp, if_pos (contains_legalOpcodes_iff.2 hfill)]
  · obtain ⟨-, hall⟩ := programWellFormed_iff.1 hp
    have himage : romImage fill p = .ok (Rom.ofFn (slotWord fill p)) := by
      rw [romImage_of_wellFormed hp, if_neg fun hcontains => hfill (contains_legalOpcodes_iff.1 hcontains)]
    refine ⟨_, himage, Rom.ofFn_wf _, fun s => ?_⟩
    rw [Rom.read_ofFn]
    refine ⟨fun t ht => ?_, fun hD => slotWord_of_eq_length hD fill, fun hfilled => slotWord_of_length_lt hfilled fill⟩
    have hoperand : t.operand ≤ 255 := operand_le_of_wellFormed (List.all_eq_true.1 hall t (List.mem_of_getElem? ht))
    rw [slotWord_of_token ht, Laws.wordOp_packWord, Laws.wordOperand_packWord, BitVec.toNat_ofNat]
    exact ⟨rfl, by omega⟩

/-! ### Three classes of characters -/

theorem isSeparator_of_isLetter {c : Byte} (h : isLetter c = true) : isSeparator c = false := by
  cases hsep : isSeparator c with
  | false => rfl
  | true =>
    simp only [isSeparator, Bool.or_eq_true, beq_iff_eq] at hsep
    rcases hsep with ((rfl | rfl) | rfl) | rfl <;> simp [isLetter] at h

theorem isSeparator_of_isDigit {c : Byte} (h : isDigit c = true) : isSeparator c = false := by
  cases hsep : isSeparator c with
  | false => rfl
  | true =>
    simp only [isSeparator, Bool.or_eq_true, beq_iff_eq] at hsep
    rcases hsep with ((rfl | rfl) | rfl) | rfl <;> simp [isDigit] at h

theorem isDigit_of_isLetter {c : Byte} (h : isLetter c = true) : isDigit c = false := by
  simp only [isLetter, isDigit, Bool.or_eq_true, Bool.and_eq_true, decide_eq_true_eq, Bool.and_eq_false_iff,
    decide_eq_false_iff_not] at h ⊢
  omega

/-! ### One character of the scan -/

theorem scan_letter {l : Byte} (hl : isLetter l = true) (cs : List Byte) :
    scan (l :: cs) .between = scan cs (.inside l 0) := by
  simp [scan, hl, isSeparator_of_isLetter hl]

theorem scan_separator_between {c : Byte} (hc : isSeparator c = true) (cs : List Byte) :
    scan (c :: cs) .between = scan cs .between := by
  simp [scan, hc]

theorem scan_separator_inside {c : Byte} (hc : isSeparator c = true) (cs : List Byte) (l : Byte) (n : Nat) :
    scan (c :: cs) (.inside l n) = (scan cs .between).map ({ letter := l, operand := n } :: ·) := by
  simp only [scan, hc, if_true]
  cases scan cs .between <;> rfl

/-- The number that the digits `digits` after the number `n` spell. -/
def digitsFrom (n : Nat) (digits : List Byte) : Nat := digits.foldl (fun n c => n * 10 + (c.toNat - 0x30)) n

theorem digitsValue_eq (digits : List Byte) : digitsValue digits = digitsFrom 0 digits := rfl

@[simp] theorem digitsFrom_nil (n : Nat) : digitsFrom n [] = n := rfl

@[simp] theorem digitsFrom_cons (n : Nat) (c : Byte) (digits : List Byte) :
    digitsFrom n (c :: digits) = digitsFrom (n * 10 + (c.toNat - 0x30)) digits := by
  simp only [digitsFrom, List.foldl_cons]

theorem le_digitsFrom (n : Nat) (digits : List Byte) : n ≤ digitsFrom n digits := by
  induction digits generalizing n with
  | nil => exact le_refl n
  | cons c digits ih =>
    have hnext := ih (n * 10 + (c.toNat - 0x30))
    rw [digitsFrom_cons]
    omega

theorem scan_digit {c : Byte} (hc : isDigit c = true) {l : Byte} {n : Nat} (hle : n * 10 + (c.toNat - 0x30) ≤ 255)
    (cs : List Byte) : scan (c :: cs) (.inside l n) = scan cs (.inside l (n * 10 + (c.toNat - 0x30))) := by
  simp [scan, hc, isSeparator_of_isDigit hc, hle]

theorem scan_digit_of_lt {c : Byte} (hc : isDigit c = true) {l : Byte} {n : Nat} (hlt : 255 < n * 10 + (c.toNat - 0x30))
    (cs : List Byte) : scan (c :: cs) (.inside l n) = .error (.operandTooLarge (n * 10 + (c.toNat - 0x30))) := by
  simp [scan, hc, isSeparator_of_isDigit hc, hlt]

/-! ### Runs of digits -/

theorem scan_digits {digits : List Byte} (hdigits : digits.all isDigit = true) {n : Nat} (hle : digitsFrom n digits ≤ 255)
    (l : Byte) (rest : List Byte) :
    scan (digits ++ rest) (.inside l n) = scan rest (.inside l (digitsFrom n digits)) := by
  induction digits generalizing n with
  | nil => rfl
  | cons c digits ih =>
    obtain ⟨hc, hdigits⟩ := by simpa only [List.all_cons, Bool.and_eq_true] using hdigits
    rw [digitsFrom_cons] at hle ⊢
    rw [List.cons_append, scan_digit hc ((le_digitsFrom _ digits).trans hle), ih hdigits hle]

theorem scan_digits_of_lt {digits : List Byte} (hdigits : digits.all isDigit = true) {n : Nat} (hn : n ≤ 255)
    (hlt : 255 < digitsFrom n digits) (l : Byte) (rest : List Byte) :
    ∃ m, 255 < m ∧ scan (digits ++ rest) (.inside l n) = .error (.operandTooLarge m) := by
  induction digits generalizing n with
  | nil => simp at hlt; omega
  | cons c digits ih =>
    obtain ⟨hc, hdigits⟩ := by simpa only [List.all_cons, Bool.and_eq_true] using hdigits
    by_cases hnext : n * 10 + (c.toNat - 0x30) ≤ 255
    · rw [List.cons_append, scan_digit hc hnext]
      exact ih hdigits hnext hlt
    · exact ⟨_, by omega, scan_digit_of_lt hc (by omega) (digits ++ rest)⟩

theorem digit_toNat (n : Nat) : (digit n).toNat = 0x30 + n % 10 := by
  rw [digit, BitVec.toNat_ofNat]
  omega

theorem isDigit_digit (n : Nat) : isDigit (digit n) = true := by
  simp only [isDigit, digit_toNat, Bool.and_eq_true, decide_eq_true_eq]
  omega

theorem all_isDigit_decimal (n : Nat) : (decimal n).all isDigit = true := by
  unfold decimal
  split
  · simp [isDigit_digit]
  · split <;> simp [isDigit_digit]

/-- The decimal form of a number spells it. -/
theorem digitsFrom_decimal {n : Nat} (h : n ≤ 255) : digitsFrom 0 (decimal n) = n := by
  unfold decimal
  split
  · simp only [digitsFrom_cons, digitsFrom_nil, digit_toNat]
    omega
  · split <;> simp only [digitsFrom_cons, digitsFrom_nil, digit_toNat] <;> omega

/-! ### The text of a program -/

/-- After the text of a program the scan goes on between tokens, the program read. -/
theorem scan_renderProgram_append {p : List Token} (hp : p.all Token.wellFormed = true) (rest : List Byte) :
    scan (renderProgram p ++ rest) .between = (scan rest .between).map (p ++ ·) := by
  induction p with
  | nil => cases h : scan rest .between <;> simp [renderProgram, h, Except.map]
  | cons t p ih =>
    obtain ⟨ht, hp⟩ := by simpa only [List.all_cons, Bool.and_eq_true] using hp
    have hoperand : t.operand ≤ 255 := operand_le_of_wellFormed ht
    have hletter : isLetter t.letter = true := by
      simp only [Token.wellFormed, Bool.and_eq_true] at ht
      exact ht.1
    have hvalue := digitsFrom_decimal hoperand
    calc scan (renderProgram (t :: p) ++ rest) .between
        = scan (decimal t.operand ++ 0x20#8 :: (renderProgram p ++ rest)) (.inside t.letter 0) := by
          rw [renderProgram, List.cons_append, scan_letter hletter, List.append_assoc, List.cons_append]
      _ = scan (0x20#8 :: (renderProgram p ++ rest)) (.inside t.letter t.operand) := by
          rw [scan_digits (all_isDigit_decimal _) (hvalue.trans_le hoperand), hvalue]
      _ = ((scan rest .between).map (p ++ ·)).map (t :: ·) := by
          rw [scan_separator_inside rfl, ih hp]
      _ = (scan rest .between).map (t :: p ++ ·) := by
          cases scan rest .between <;> rfl

/-- Settles O53: after the text of the program nothing is left. -/
theorem sourceTextReadsBack : Obligations.SourceTextReadsBack := by
  intro p hp
  have hscan := scan_renderProgram_append hp []
  simpa [scan, Except.map] using hscan

/-! ### What an accepted text looks like -/

/-- Where the scan can stand: inside a token only after its letter, with a number that fits a byte. -/
def Scan.wellFormed : Scan → Prop
  | .between => True
  | .inside l n => isLetter l = true ∧ n ≤ 255

/-- What the scan does at a character of a text it takes. -/
theorem scan_cons_eq_ok_cases {c : Byte} {cs : List Byte} {st : Scan} {p : List Token} (h : scan (c :: cs) st = .ok p) :
    (isSeparator c = true ∧ st = .between ∧ scan cs .between = .ok p) ∨
    (isSeparator c = true ∧ ∃ l n ts, st = .inside l n ∧ p = { letter := l, operand := n } :: ts ∧
      scan cs .between = .ok ts) ∨
    (isLetter c = true ∧ st = .between ∧ scan cs (.inside c 0) = .ok p) ∨
    (isDigit c = true ∧ ∃ l n, st = .inside l n ∧ n * 10 + (c.toNat - 0x30) ≤ 255 ∧
      scan cs (.inside l (n * 10 + (c.toNat - 0x30))) = .ok p) := by
  cases st with
  | between =>
    by_cases hsep : isSeparator c = true
    · exact .inl ⟨hsep, rfl, by rwa [scan_separator_between hsep] at h⟩
    · by_cases hletter : isLetter c = true
      · exact .inr (.inr (.inl ⟨hletter, rfl, by rwa [scan_letter hletter] at h⟩))
      · simp [scan, hsep, hletter] at h
  | inside l n =>
    by_cases hsep : isSeparator c = true
    · rw [scan_separator_inside hsep] at h
      cases hrest : scan cs .between with
      | ok ts =>
        rw [hrest] at h
        cases h
        exact .inr (.inl ⟨hsep, l, n, ts, rfl, rfl, rfl⟩)
      | error e => simp [hrest, Except.map] at h
    · by_cases hdigit : isDigit c = true
      · by_cases hle : n * 10 + (c.toNat - 0x30) ≤ 255
        · rw [scan_digit hdigit hle] at h
          exact .inr (.inr (.inr ⟨hdigit, l, n, rfl, hle, h⟩))
        · simp [scan_digit_of_lt hdigit (not_le.1 hle)] at h
      · by_cases hletter : isLetter c = true <;> simp [scan, hsep, hdigit, hletter] at h

theorem wellFormed_of_scan {text : List Byte} {st : Scan} {p : List Token} (hst : st.wellFormed)
    (h : scan text st = .ok p) : p.all Token.wellFormed = true := by
  induction text generalizing st p with
  | nil =>
    cases st with
    | between => cases h; rfl
    | inside l n =>
      obtain ⟨hl, hn⟩ := hst
      cases h
      simp [Token.wellFormed, hl, hn]
  | cons c cs ih =>
    rcases scan_cons_eq_ok_cases h with ⟨-, rfl, hrest⟩ | ⟨-, l, n, ts, rfl, rfl, hrest⟩ | ⟨hletter, rfl, hrest⟩ |
      ⟨-, l, n, rfl, hle, hrest⟩
    · exact ih (st := .between) trivial hrest
    · obtain ⟨hl, hn⟩ := hst
      have htokens := ih (st := .between) trivial hrest
      simpa [Token.wellFormed, hl, hn] using htokens
    · exact ih (st := .inside c 0) ⟨hletter, Nat.zero_le 255⟩ hrest
    · obtain ⟨hl, -⟩ := hst
      exact ih (st := .inside l _) ⟨hl, hle⟩ hrest

/-- Every rest of a text the scanner takes is itself taken, from where the scan then stands. -/
theorem exists_scan_of_append {front rest : List Byte} {st : Scan} {p : List Token}
    (h : scan (front ++ rest) st = .ok p) : ∃ st' p', scan rest st' = .ok p' := by
  induction front generalizing st p with
  | nil => exact ⟨st, p, h⟩
  | cons c cs ih =>
    rcases scan_cons_eq_ok_cases h with ⟨-, -, hrest⟩ | ⟨-, l, n, ts, -, -, hrest⟩ | ⟨-, -, hrest⟩ |
      ⟨-, l, n, -, -, hrest⟩ <;> exact ih hrest

theorem class_of_scan_cons {c : Byte} {cs : List Byte} {st : Scan} {p : List Token} (h : scan (c :: cs) st = .ok p) :
    isSeparator c = true ∨ isLetter c = true ∨ isDigit c = true := by
  rcases scan_cons_eq_ok_cases h with ⟨hc, -⟩ | ⟨hc, -⟩ | ⟨hc, -⟩ | ⟨hc, -⟩
  · exact .inl hc
  · exact .inl hc
  · exact .inr (.inl hc)
  · exact .inr (.inr hc)

theorem isDigit_of_scan_between {c : Byte} {cs : List Byte} {p : List Token} (h : scan (c :: cs) .between = .ok p) :
    isDigit c = false := by
  rcases scan_cons_eq_ok_cases h with ⟨hsep, -⟩ | ⟨-, l, n, ts, hst, -⟩ | ⟨hletter, -⟩ | ⟨-, l, n, hst, -⟩
  · cases hdigit : isDigit c with
    | false => rfl
    | true => simp [isSeparator_of_isDigit hdigit] at hsep
  · cases hst
  · exact isDigit_of_isLetter hletter
  · cases hst

theorem isLetter_of_scan_inside {c l : Byte} {n : Nat} {cs : List Byte} {p : List Token}
    (h : scan (c :: cs) (.inside l n) = .ok p) : isLetter c = false := by
  cases hletter : isLetter c with
  | false => rfl
  | true => simp [scan, hletter, isSeparator_of_isLetter hletter, isDigit_of_isLetter hletter] at h

/-- After a separator the scan stands between tokens, after any other character inside one. -/
theorem neighbours_of_scan {x y : Byte} {cs : List Byte} {st : Scan} {p : List Token}
    (h : scan (x :: y :: cs) st = .ok p) :
    (isLetter y = true → isSeparator x = true) ∧ (isDigit y = true → isSeparator x = false) := by
  rcases scan_cons_eq_ok_cases h with ⟨hsep, -, hrest⟩ | ⟨hsep, -, -, ts, -, -, hrest⟩ | ⟨hletter, -, hrest⟩ |
    ⟨hdigit, l, n, -, -, hrest⟩
  · exact ⟨fun _ => hsep, fun hy => by simp [isDigit_of_scan_between hrest] at hy⟩
  · exact ⟨fun _ => hsep, fun hy => by simp [isDigit_of_scan_between hrest] at hy⟩
  · exact ⟨fun hy => by simp [isLetter_of_scan_inside hrest] at hy, fun _ => isSeparator_of_isLetter hletter⟩
  · exact ⟨fun hy => by simp [isLetter_of_scan_inside hrest] at hy, fun _ => isSeparator_of_isDigit hdigit⟩

theorem scan_program_operandTooLarge {p : List Token} {l : Byte} {digits : List Byte} (hp : p.all Token.wellFormed = true)
    (hl : isLetter l = true) (hdigits : digits.all isDigit = true) (hlt : 255 < digitsValue digits) (rest : List Byte) :
    ∃ n, 255 < n ∧ scan (renderProgram p ++ l :: (digits ++ rest)) .between = .error (.operandTooLarge n) := by
  rw [digitsValue_eq] at hlt
  obtain ⟨n, hn, hscan⟩ := scan_digits_of_lt hdigits (Nat.zero_le 255) hlt l rest
  exact ⟨n, hn, by rw [scan_renderProgram_append hp, scan_letter hl, hscan]; rfl⟩

theorem scan_single_token {l : Byte} {digits : List Byte} (hl : isLetter l = true) (hdigits : digits.all isDigit = true)
    (hle : digitsValue digits ≤ 255) :
    scan (l :: digits) .between = .ok [{ letter := l, operand := digitsValue digits }] := by
  rw [digitsValue_eq] at hle ⊢
  have hscan := scan_digits hdigits hle l []
  rw [List.append_nil] at hscan
  rw [scan_letter hl, hscan]
  rfl

/-- Settles O54: the errors by runs of digits, the shape of an accepted text by its two neighbouring characters. -/
theorem scannerRefusesWhatD14Refuses : Obligations.ScannerRefusesWhatD14Refuses := by
  refine ⟨fun p l digits rest hp hl hdigits hlt => scan_program_operandTooLarge hp hl hdigits hlt rest,
    fun l digits => scan_single_token, fun text p hscan => ⟨wellFormed_of_scan (st := .between) trivial hscan,
      fun c hc => ?_, ?_, ?_⟩, fun fill text e hscan => by simp [assemble, hscan]⟩
  · obtain ⟨front, rest, rfl⟩ := List.append_of_mem hc
    obtain ⟨st, p', hrest⟩ := exists_scan_of_append hscan
    exact class_of_scan_cons hrest
  · rintro front x y rest rfl
    obtain ⟨st, p', hrest⟩ := exists_scan_of_append hscan
    exact neighbours_of_scan hrest
  · rintro c rest rfl
    exact isDigit_of_scan_between hscan

end Sys2Proof.Machine
